-- ==== Sys2Proof/Word.lean ====
section
/-! DEFINITION. The machine word (00_scope.md R7): a signed 64-bit integer, stored as 64 bits and read
in two's complement through `BitVec.toInt` (00_scope.md R11, log entry 2). -/

namespace Sys2Proof

/-- 00_scope.md R7: every memory cell, instruction word, operand value, the relative base and every host
data value. Its value is `w.toInt`. -/
abbrev Word := BitVec 64

/-- 00_scope.md R7: `WORD_MIN = -2^63`. -/
abbrev wordMin : Int := -9223372036854775808

/-- 00_scope.md R7: `WORD_MAX = 2^63 - 1`. -/
abbrev wordMax : Int := 9223372036854775807

/-- 00_scope.md R12: `fits(v)` is `WORD_MIN <= v <= WORD_MAX`. -/
abbrev Fits (v : Int) : Prop := wordMin ≤ v ∧ v ≤ wordMax

end Sys2Proof
end

