-- ==== Sys2Proof/Config.lean ====
section
/-! DEFINITION. The parameters of 00_scope.md R9: the four fixed ones as constants, the two OPEN ones
(`MEM_LIMIT`, `MISORDER_SUPPLY`) as the record `Params` that a machine is built with (log entry 3). -/

namespace Sys2Proof

namespace Config

/-- 00_scope.md R9: `WORD_BITS`. -/
abbrev wordBits : Nat := 64

/-- 00_scope.md R8: `ADDR_MAX = 2^63 - 1`; an address is an integer in `0 .. ADDR_MAX`. -/
abbrev addrMax : Nat := 9223372036854775807

/-- 00_scope.md R9: `MODE_SLOTS`; 30_encoding.md R63 decodes exactly three mode digits. -/
abbrev modeSlots : Nat := 3

/-- 00_scope.md R9: `MAX_INSN_WORDS`; 30_encoding.md R61. -/
abbrev maxInsnWords : Nat := 4

end Config

/-- 00_scope.md R9, `MISORDER_SUPPLY`: what SUPPLY does outside AwaitingInput (92_eei_decisions.md D18). -/
inductive MisorderSupply where
  /-- the source's default: nothing happens -/
  | noop
  /-- the machine faults in Running and HasOutput -/
  | fault
deriving DecidableEq, Repr

/-- The OPEN parameters of 00_scope.md R9. They are fixed for one machine; statements hold for every value. -/
structure Params where
  /-- `MEM_LIMIT`: the number of words the implementation can store (92_eei_decisions.md D4) -/
  memLimit : Nat
  /-- `MISORDER_SUPPLY` -/
  misorderSupply : MisorderSupply
deriving DecidableEq, Repr

/-- 00_scope.md R9: `1 <= MEM_LIMIT <= 2^63`. -/
abbrev Params.wf (p : Params) : Prop := 1 ≤ p.memLimit ∧ p.memLimit ≤ 9223372036854775808

/-- DESIGN CHOICE (log entry 3): the parameters of the machine `State.reset`, those that 95_test_vectors.md
uses "unless stated": no limit below the address space, and the source's default for SUPPLY. -/
def Params.standard : Params := { memLimit := 9223372036854775808, misorderSupply := .noop }

end Sys2Proof
end

