-- ==== Sys2Proof/Syntax/Fields.lean ====
section
/-! DEFINITION. The fields of an instruction word: the three parameter modes (30_encoding.md R64), the ten
opcodes (R66), and the three reasons a word is refused by the decoder (R76). -/

namespace Sys2Proof

/-- 30_encoding.md R64: the addressing mode of one parameter slot. -/
inductive Mode where
  | position
  | immediate
  | relative
deriving DecidableEq, Repr

/-- 30_encoding.md R66: the defined set of opcodes, by mnemonic (`inp` is IN). -/
inductive Opcode where
  | add | mul | inp | out | jt | jf | lt | eq | arb | hlt
deriving DecidableEq, Repr

/-- 30_encoding.md R76: why a word is no instruction. -/
inductive Reject where
  /-- `FR_NEGWORD`: the word is negative (R62) -/
  | negWord
  /-- `FR_OPCODE`: its two low decimal digits are no opcode (R66) -/
  | opcode
  /-- `FR_MODE`: one of its three mode digits is 3 to 9 (R64) -/
  | mode
deriving DecidableEq, Repr

end Sys2Proof
end

