-- ==== Sys2Proof/Syntax.lean ====
section
/-! DEFINITION. The instructions: one constructor per row of spec/opcode_table.json. Every instruction carries
the three modes the Decoder extracts whatever the opcode (30_encoding.md R63): `a`, `b`, `c` are the pattern
letters A, B, C, the modes of slots 1, 2, 3. A parameter's literal is no part of the decoded instruction: it
is fetched from Memory when its slot is resolved (R69, R71; log entry 8). -/

namespace Sys2Proof

/-- 30_encoding.md R66, the closed set of ten instructions. -/
inductive Instr where
  /-- opcode 1, 41_arithmetic.md R121 -/
  | add (a b c : Mode)
  /-- opcode 2, 41_arithmetic.md R122 -/
  | mul (a b c : Mode)
  /-- opcode 3, the table's IN, 42_io.md R130 -/
  | inp (a b c : Mode)
  /-- opcode 4, 42_io.md R132 -/
  | out (a b c : Mode)
  /-- opcode 5, 43_jumps.md R140 -/
  | jt (a b c : Mode)
  /-- opcode 6, 43_jumps.md R141 -/
  | jf (a b c : Mode)
  /-- opcode 7, 44_compare.md R150 -/
  | lt (a b c : Mode)
  /-- opcode 8, 44_compare.md R151 -/
  | eq (a b c : Mode)
  /-- opcode 9, 45_base_halt.md R160 -/
  | arb (a b c : Mode)
  /-- opcode 99, 45_base_halt.md R161 -/
  | hlt (a b c : Mode)
deriving DecidableEq, Repr

end Sys2Proof
end

