-- ==== Sys2Proof/Syntax/Assembly.lean ====
section
/-! DEFINITION. The assembly notation of 30_encoding.md R79, as data: operands and lines. It is the spec's own
notation and no part of the machine (92_eei_decisions.md D19); a label stands for a number. -/

namespace Sys2Proof

/-- 30_encoding.md R79: `n`, `[n]`, `[rb+n]`. -/
inductive Operand where
  /-- `n`: the literal itself -/
  | imm (n : Word)
  /-- `[n]`: the cell at address `n` -/
  | cell (n : Word)
  /-- `[rb+n]`: the cell at `n + rb` -/
  | rel (n : Word)
deriving DecidableEq, Repr

/-- 30_encoding.md R79, R80: a line is one instruction with its operands in slot order, or `DATA v`. -/
inductive Line where
  | add (x y z : Operand)
  | mul (x y z : Operand)
  | inp (x : Operand)
  | out (x : Operand)
  | jt (x y : Operand)
  | jf (x y : Operand)
  | lt (x y z : Operand)
  | eq (x y z : Operand)
  | arb (x : Operand)
  | hlt
  | data (v : Word)
deriving DecidableEq, Repr

end Sys2Proof
end

