-- ==== Sys2Proof/WellFormed.lean ====
section
/-! DEFINITION. Which instructions use only the mode digits spec/opcode_table.json calls legal, and which are in
the canonical form of 30_encoding.md R82. Both are facts about syntax: the decoder accepts ill-formed
instructions too, and they fault when they write (R76; log entry 13). -/

namespace Sys2Proof

/-- The mode of the slot that 30_encoding.md R66 marks "write", for an instruction that has one. -/
def Instr.destMode : Instr → Option Mode
  | .add _ _ c => some c
  | .mul _ _ c => some c
  | .inp a _ _ => some a
  | .out _ _ _ => none
  | .jt _ _ _ => none
  | .jf _ _ _ => none
  | .lt _ _ c => some c
  | .eq _ _ c => some c
  | .arb _ _ _ => none
  | .hlt _ _ _ => none

/-- The modes of the slots beyond the instruction's parameter count (30_encoding.md R67). -/
def Instr.unusedModes : Instr → List Mode
  | .add _ _ _ => []
  | .mul _ _ _ => []
  | .inp _ b c => [b, c]
  | .out _ b c => [b, c]
  | .jt _ _ c => [c]
  | .jf _ _ c => [c]
  | .lt _ _ _ => []
  | .eq _ _ _ => []
  | .arb _ b c => [b, c]
  | .hlt a b c => [a, b, c]

/-- The table's "legal_modes": a write slot is Position or Relative; "a destination parameter is never
immediate-mode by contract" (30_encoding.md R73). -/
def Instr.wellFormed (i : Instr) : Bool := i.destMode != some .immediate

/-- 30_encoding.md R82: the assembler writes digit 0 in an unused slot. -/
def Instr.canonical (i : Instr) : Bool := i.unusedModes.all (· == .position)

end Sys2Proof
end

