-- ==== Sys2Proof/Decode.lean ====
section
/-! DEFINITION. The decimal instruction word: the Decoder (30_encoding.md R60 to R69), total on words and
rejecting by name, and the encoder and assembler (R79 to R82). -/

namespace Sys2Proof

/-- 00_scope.md R11: `digit(W, k)`, the digit of `W` at the `10^k` place. -/
def digit (w k : Nat) : Nat := w / 10 ^ k % 10

/-- 30_encoding.md R64: "0→Position, 1→Immediate, 2→Relative"; any other digit is no mode. -/
def modeOfDigit (d : Nat) : Option Mode :=
  match d with
  | 0 => some .position
  | 1 => some .immediate
  | 2 => some .relative
  | _ => none

/-- 30_encoding.md R66: the defined set of opcodes. -/
def opcodeOfNumber (n : Nat) : Option Opcode :=
  match n with
  | 1 => some .add
  | 2 => some .mul
  | 3 => some .inp
  | 4 => some .out
  | 5 => some .jt
  | 6 => some .jf
  | 7 => some .lt
  | 8 => some .eq
  | 9 => some .arb
  | 99 => some .hlt
  | _ => none

/-- The instruction with a given opcode and the modes of slots 1, 2, 3. -/
def Opcode.instr (op : Opcode) (a b c : Mode) : Instr :=
  match op with
  | .add => .add a b c
  | .mul => .mul a b c
  | .inp => .inp a b c
  | .out => .out a b c
  | .jt => .jt a b c
  | .jf => .jf a b c
  | .lt => .lt a b c
  | .eq => .eq a b c
  | .arb => .arb a b c
  | .hlt => .hlt a b c

/-- 30_encoding.md R63, R64: the three mode digits of `w`, all checked whatever the opcode. -/
def decodeModes (op : Opcode) (w : Nat) : Except Reject Instr :=
  match modeOfDigit (digit w 2) with
  | none => .error .mode
  | some a =>
    match modeOfDigit (digit w 3) with
    | none => .error .mode
    | some b =>
      match modeOfDigit (digit w 4) with
      | none => .error .mode
      | some c => .ok (op.instr a b c)

/-- 30_encoding.md R68: the decode of one instruction word. -/
def decode (W : Word) : Except Reject Instr :=
  if W.toInt < 0 then .error .negWord
  else
    match opcodeOfNumber (W.toNat % 100) with
    | none => .error .opcode
    | some op => decodeModes op W.toNat

/-- The opcode of an instruction. -/
def Instr.opcode : Instr → Opcode
  | .add _ _ _ => .add
  | .mul _ _ _ => .mul
  | .inp _ _ _ => .inp
  | .out _ _ _ => .out
  | .jt _ _ _ => .jt
  | .jf _ _ _ => .jf
  | .lt _ _ _ => .lt
  | .eq _ _ _ => .eq
  | .arb _ _ _ => .arb
  | .hlt _ _ _ => .hlt

/-- The mode of slot 1. -/
def Instr.mode1 : Instr → Mode
  | .add a _ _ => a
  | .mul a _ _ => a
  | .inp a _ _ => a
  | .out a _ _ => a
  | .jt a _ _ => a
  | .jf a _ _ => a
  | .lt a _ _ => a
  | .eq a _ _ => a
  | .arb a _ _ => a
  | .hlt a _ _ => a

/-- The mode of slot 2. -/
def Instr.mode2 : Instr → Mode
  | .add _ b _ => b
  | .mul _ b _ => b
  | .inp _ b _ => b
  | .out _ b _ => b
  | .jt _ b _ => b
  | .jf _ b _ => b
  | .lt _ b _ => b
  | .eq _ b _ => b
  | .arb _ b _ => b
  | .hlt _ b _ => b

/-- The mode of slot 3. -/
def Instr.mode3 : Instr → Mode
  | .add _ _ c => c
  | .mul _ _ c => c
  | .inp _ _ c => c
  | .out _ _ c => c
  | .jt _ _ c => c
  | .jf _ _ c => c
  | .lt _ _ c => c
  | .eq _ _ c => c
  | .arb _ _ c => c
  | .hlt _ _ c => c

/-- 30_encoding.md R66: the opcode's number. -/
def Opcode.number : Opcode → Nat
  | .add => 1
  | .mul => 2
  | .inp => 3
  | .out => 4
  | .jt => 5
  | .jf => 6
  | .lt => 7
  | .eq => 8
  | .arb => 9
  | .hlt => 99

/-- 30_encoding.md R61, R66: the number of parameters. -/
def Opcode.paramCount : Opcode → Nat
  | .add => 3
  | .mul => 3
  | .inp => 1
  | .out => 1
  | .jt => 2
  | .jf => 2
  | .lt => 3
  | .eq => 3
  | .arb => 1
  | .hlt => 0

/-- 30_encoding.md R61: the length in words. -/
def Opcode.length : Opcode → Nat
  | .add => 4
  | .mul => 4
  | .inp => 2
  | .out => 2
  | .jt => 3
  | .jf => 3
  | .lt => 4
  | .eq => 4
  | .arb => 2
  | .hlt => 1

/-- 30_encoding.md R64, the digit of a mode. -/
def Mode.digit : Mode → Nat
  | .position => 0
  | .immediate => 1
  | .relative => 2

/-- 30_encoding.md R82: `W = op + 100*d1 + 1000*d2 + 10000*d3`. -/
def encodeNat (i : Instr) : Nat :=
  i.opcode.number + 100 * i.mode1.digit + 1000 * i.mode2.digit + 10000 * i.mode3.digit

/-- 30_encoding.md R82: the instruction word. -/
def encode (i : Instr) : Word := BitVec.ofNat 64 (encodeNat i)

/-- 30_encoding.md R82: the words of an instruction, "followed by the literals of its used slots in slot
order". -/
def assemble (i : Instr) (l1 l2 l3 : Word) : List Word :=
  encode i :: [l1, l2, l3].take i.opcode.paramCount

/-- 30_encoding.md R79: the mode an operand is written in. -/
def Operand.mode : Operand → Mode
  | .imm _ => .immediate
  | .cell _ => .position
  | .rel _ => .relative

/-- 30_encoding.md R79: the literal of an operand. -/
def Operand.literal : Operand → Word
  | .imm n => n
  | .cell n => n
  | .rel n => n

/-- An operand list as instruction modes and literals; unused slots are Position (30_encoding.md R82). -/
def assembleOp (op : Opcode) (xs : List Operand) : List Word :=
  match xs with
  | [] => [encode (op.instr .position .position .position)]
  | [x] => [encode (op.instr x.mode .position .position), x.literal]
  | [x, y] => [encode (op.instr x.mode y.mode .position), x.literal, y.literal]
  | x :: y :: z :: _ => [encode (op.instr x.mode y.mode z.mode), x.literal, y.literal, z.literal]

/-- 30_encoding.md R79, R82: the words of one line of assembly. -/
def Line.words : Line → List Word
  | .add x y z => assembleOp .add [x, y, z]
  | .mul x y z => assembleOp .mul [x, y, z]
  | .inp x => assembleOp .inp [x]
  | .out x => assembleOp .out [x]
  | .jt x y => assembleOp .jt [x, y]
  | .jf x y => assembleOp .jf [x, y]
  | .lt x y z => assembleOp .lt [x, y, z]
  | .eq x y z => assembleOp .eq [x, y, z]
  | .arb x => assembleOp .arb [x]
  | .hlt => assembleOp .hlt []
  | .data v => [v]

/-- Word `k` (from 0) of an instruction whose bits are numbered as spec/opcode_table.json numbers them: bit 0
is the least significant bit of the first word, word `k` is bits `64*k .. 64*k+63`, and every bit at `nbits`
and above is 0 (log entry 12). -/
def tableWord (nbits w k : Nat) : Word := BitVec.ofNat 64 (w % 2 ^ nbits / 2 ^ (64 * k))

/-- The instruction the decoder reads from a table word: the decode looks at the first word only
(30_encoding.md R69). -/
def decodeTableWord (nbits w : Nat) : Option Instr :=
  match decode (tableWord nbits w 0) with
  | .ok i => some i
  | .error _ => none

end Sys2Proof
end

