-- ==== Sys2Proof/Machine/State.lean ====
section
/-! DEFINITION. The state of one machine (10_state.md R20), its reset value, and the names of the reasons a
check fires or a host command is refused. -/

namespace Sys2Proof.Machine

/-- 20_memory.md R40: Memory, a total map from addresses to words, held as the list of the cells that do not
hold 0. An unlisted address reads 0, "zero-initialized". The unit is one 64-bit word: Memory has no bytes
(R47; log entry 1). -/
structure Memory where
  cells : List (Nat × Word)
deriving DecidableEq, Repr

/-- The canonical form: addresses strictly rising, no listed cell holding what an unlisted one reads as. -/
abbrev Memory.wf (m : Memory) : Prop :=
  m.cells.Pairwise (fun x y => x.1 < y.1) ∧ ∀ x ∈ m.cells, x.2 ≠ 0

/-- 10_state.md R25: the execution state. -/
inductive ExecState where
  /-- the engine executes instructions while a host command runs it -/
  | running
  /-- suspended at an IN until the host supplies a value -/
  | awaitingInput
  /-- suspended at an OUT until the host consumes the value -/
  | hasOutput
  /-- the program executed HLT; terminal -/
  | halted
  /-- a fault occurred; terminal -/
  | faulted
deriving DecidableEq, Repr

/-- 10_state.md R27: the decoded-instruction latch, the last successful decode. -/
structure Dir where
  op : Opcode
  mode1 : Mode
  mode2 : Mode
  mode3 : Mode
deriving DecidableEq, Repr

/-- The fault reasons of 60_exceptions.md R172. They name the check that fired inside a meaning and are recorded
nowhere (R173). A fault is an effect the spec gives, so a meaning turns each of these into the NEXT state with
`st = Faulted` (R170; log entry 5): no step of this model answers `Host.Outcome.fault`, so none is a stop,
and each is safe. -/
inductive Fault where
  /-- `FR_OPCODE`, raised by decode: `W mod 100` is no opcode. Safe. -/
  | opcode
  /-- `FR_NEGWORD`, raised by decode: the instruction word is negative. Safe. -/
  | negWord
  /-- `FR_MODE`, raised by decode: a mode digit 3 to 9 in any slot. Safe. -/
  | mode
  /-- `FR_NEGADDR`, raised by `read` and `write`: a negative Position literal or Relative address. Safe. -/
  | negAddr
  /-- `FR_NEGJUMP`, raised by JT and JF: a taken jump's target is negative. Safe. -/
  | negJump
  /-- `FR_IMMWRITE`, raised by `write`: the destination is in Immediate mode. Safe. -/
  | immWrite
  /-- `FR_OVERFLOW`, raised by ADD, MUL and ARB: the exact result is no word. Safe. -/
  | overflow
  /-- `FR_ADDRSPACE`, raised by the parameter fetch, a Relative address or an `ip` advance above `ADDR_MAX`. Safe. -/
  | addrSpace
  /-- `FR_MEMLIMIT`, raised by a write at or past `MEM_LIMIT`. Safe. -/
  | memLimit
  /-- `FR_MISORDER`, raised by SUPPLY out of turn when `MISORDER_SUPPLY = fault`. Safe. -/
  | misorder
deriving DecidableEq, Repr

/-- What this model refuses. No instruction's meaning answers one of these. -/
inductive Refusal where
  /-- Raised by `exec` for an instruction that has no meaning yet; no arm of this model does. Safe. -/
  | notModelled (mnemonic : String)
  /-- Raised by POKE at or past `MEM_LIMIT`: "the command is refused", the block has no transition for it
  (20_memory.md R46). Safe. -/
  | pokeBeyondLimit
  /-- Raised by LOAD of more than `MEM_LIMIT` words: "a larger image is refused" (70_reset_and_hazards.md R190). Safe. -/
  | imageBeyondLimit
  /-- Raised by a command to a machine that does not exist (the model's own, log entry 11). Safe. -/
  | noSuchMachine
deriving DecidableEq, Repr

/-- 10_state.md R20: the state of one machine, the tuple `(m, len, ip, rb, st, dir)`, with the parameters the
machine was built with beside it. -/
structure State where
  /-- Memory, the spec's `m` (20_memory.md R40) -/
  mem : Memory
  /-- Memory's current length, non-architectural (R32) -/
  len : Nat
  /-- instruction pointer, an address (R21) -/
  ip : Nat
  /-- relative base (R24) -/
  rb : Word
  /-- execution state (R25) -/
  st : ExecState
  /-- decoded-instruction latch (R27) -/
  dir : Dir
  /-- the MODEL'S own field: the OPEN parameters of 00_scope.md R9, which nothing changes (log entry 3) -/
  params : Params
deriving DecidableEq, Repr

/-- DESIGN CHOICE (log entry 4): the latch at reset, which the spec leaves "unspecified" and nothing reads. -/
def Dir.atReset : Dir := { op := .add, mode1 := .position, mode2 := .position, mode3 := .position }

/-- 10_state.md R34, 70_reset_and_hazards.md R191: the machine right after LOAD of the empty image
(log entry 9). -/
def State.reset : State :=
  { mem := { cells := [] }, len := 0, ip := 0, rb := 0, st := .running, dir := Dir.atReset, params := Params.standard }

end Sys2Proof.Machine
end

