-- ==== Sys2Proof/Machine/Ops.lean ====
section
/-! DEFINITION. The operations every meaning is written over: Memory (20_memory.md R42, R43), the updates of the
state, the exact-arithmetic check (41_arithmetic.md R120), the `ip` advance (30_encoding.md R70), the fetch and
decode of an engine step (40_engine.md R106), and entering Faulted (60_exceptions.md R170). -/

namespace Sys2Proof.Machine

open Sys2Proof.Config

/-- The word a cell list holds at an address; 0 where none is listed. -/
def Memory.lookup : List (Nat × Word) → Nat → Word
  | [], _ => 0
  | (b, w) :: rest, a => if a = b then w else Memory.lookup rest a

/-- The cell list with one cell set, kept in canonical form: setting a cell to 0 unlists it. -/
def Memory.put : List (Nat × Word) → Nat → Word → List (Nat × Word)
  | [], a, v => if v = 0 then [] else [(a, v)]
  | (b, w) :: rest, a, v =>
    if a < b then (if v = 0 then (b, w) :: rest else (a, v) :: (b, w) :: rest)
    else if a = b then (if v = 0 then rest else (a, v) :: rest)
    else (b, w) :: Memory.put rest a v

/-- `m[a]`. -/
def Memory.read (m : Memory) (a : Nat) : Word := Memory.lookup m.cells a

/-- `m` with `m[a] <- v`. -/
def Memory.write (m : Memory) (a : Nat) (v : Word) : Memory := { cells := Memory.put m.cells a v }

/-- `ip <- a`. -/
def State.setIp (s : State) (a : Nat) : State := { s with ip := a }

/-- `rb <- w`. -/
def State.setRb (s : State) (w : Word) : State := { s with rb := w }

/-- `st <- e`. -/
def State.setSt (s : State) (e : ExecState) : State := { s with st := e }

/-- `dir <- d`. -/
def State.setDir (s : State) (d : Dir) : State := { s with dir := d }

/-- The effect of a write that is not refused (20_memory.md R43): `m[a] <- v` and `len <- max(len, a + 1)`. -/
def State.store (s : State) (a : Nat) (v : Word) : State :=
  { s with mem := s.mem.write a v, len := max s.len (a + 1) }

/-- 20_memory.md R42: `MemRead(a, 1)`. -/
def memRead (a : Nat) (s : State) : Word := s.mem.read a

/-- 20_memory.md R43: `MemWrite(a, 1, v)`. -/
def memWrite (a : Nat) (v : Word) (s : State) : Except Fault State :=
  if s.params.memLimit ≤ a then .error .memLimit else .ok (s.store a v)

/-- 41_arithmetic.md R120: an exact integer result is stored only if it is itself a word. -/
def narrow (v : Int) : Except Fault Word :=
  if Fits v then .ok (BitVec.ofInt 64 v) else .error .overflow

/-- 30_encoding.md R70: the advance `ip + n`, or `FR_ADDRSPACE` in its place. -/
def nextIp (n : Nat) (s : State) : Except Fault Nat :=
  if addrMax < s.ip + n then .error .addrSpace else .ok (s.ip + n)

/-- 60_exceptions.md R170, R171, R173: `raise Fault(reason)` sets `st <- Faulted` and nothing else; the reason is
recorded nowhere. -/
def raiseFault (_reason : Fault) (s : State) : State := s.setSt .faulted

/-- How an instruction ends: with its effect, or abandoned by the first check that fired (60_exceptions.md R170,
R174), in which case nothing of its effect remains. -/
def commit (s : State) (effect : Except Fault State) : Host.Outcome State Fault Refusal :=
  match effect with
  | .ok t => .next t
  | .error r => .next (raiseFault r s)

/-- The tag of 60_exceptions.md R172 for each way a word is no instruction. -/
def faultOfReject : Reject → Fault
  | .negWord => .negWord
  | .opcode => .opcode
  | .mode => .mode

/-- 40_engine.md R106: fetch the word at `ip` and decode it. -/
def fetchDecode (s : State) : Except Fault Instr :=
  match decode (memRead s.ip s) with
  | .ok i => .ok i
  | .error r => .error (faultOfReject r)

/-- The latch contents for a decoded instruction. -/
def dirOf (i : Instr) : Dir := { op := i.opcode, mode1 := i.mode1, mode2 := i.mode2, mode3 := i.mode3 }

/-- 30_encoding.md R68, last line: `dir <- (op, mode_1, mode_2, mode_3)`. -/
def latch (i : Instr) (s : State) : State := s.setDir (dirOf i)

/-- 10_state.md R26: the code STATE gives where an encoding is needed. -/
def execStateCode : ExecState → BitVec 3
  | .running => 0
  | .awaitingInput => 1
  | .hasOutput => 2
  | .halted => 3
  | .faulted => 4

/-- The words of a list placed at rising addresses from `a`, those above `ADDR_MAX` left out. -/
def placeWords (a : Nat) (ws : List Word) (s : State) : State :=
  match ws with
  | [] => s
  | w :: rest => placeWords (a + 1) rest (if a ≤ addrMax then s.store a w else s)

end Sys2Proof.Machine
end

