-- ==== Sys2Proof/Machine/Operands.lean ====
section
/-! DEFINITION. The Operand Resolver (30_encoding.md R70 to R75): parameter fetch, the Relative-mode effective
address, `read(k)` and `write(k, v)`, and the shape shared by the three-parameter instructions. The mode is an
argument: a meaning passes its instruction's, a completion the latched `dir.mode1`. -/

namespace Sys2Proof.Machine

open Sys2Proof.Config

/-- 30_encoding.md R70: `fetchParam(k)`, the literal `L_k` at `ip + k`. -/
def fetchParam (k : Nat) (s : State) : Except Fault Word :=
  if addrMax < s.ip + k then .error .addrSpace else .ok (memRead (s.ip + k) s)

/-- 30_encoding.md R74: `ea_rel(L)`, the sum on mathematical integers, no wrap-around. -/
def eaRel (L : Word) (s : State) : Except Fault Nat :=
  if L.toInt + s.rb.toInt < 0 then .error .negAddr
  else if (addrMax : Int) < L.toInt + s.rb.toInt then .error .addrSpace
  else .ok (L.toInt + s.rb.toInt).toNat

/-- The Position-mode address of a literal (30_encoding.md R72, R73): the literal alone, a fault if negative. -/
def eaPos (L : Word) : Except Fault Nat :=
  if L.toInt < 0 then .error .negAddr else .ok L.toNat

/-- 30_encoding.md R72: `read(k)` with slot `k` in mode `mode`. -/
def readParam (mode : Mode) (k : Nat) (s : State) : Except Fault Word :=
  match mode with
  | .position => do
    let L ← fetchParam k s
    let a ← eaPos L
    .ok (memRead a s)
  | .immediate => fetchParam k s
  | .relative => do
    let L ← fetchParam k s
    let a ← eaRel L s
    .ok (memRead a s)

/-- The address `write(k, v)` stores to (30_encoding.md R73); Immediate is always a fault. -/
def destAddr (mode : Mode) (k : Nat) (s : State) : Except Fault Nat :=
  match mode with
  | .immediate => .error .immWrite
  | .position => do
    let L ← fetchParam k s
    eaPos L
  | .relative => do
    let L ← fetchParam k s
    eaRel L s

/-- 30_encoding.md R73: `write(k, v)` with slot `k` in mode `mode`. -/
def writeParam (mode : Mode) (k : Nat) (v : Word) (s : State) : Except Fault State := do
  let a ← destAddr mode k s
  memWrite a v s

/-- The shape of ADD, MUL, LT and EQ (40_engine.md R107): both reads in slot order, the computation, the range
check of the new `ip`, the one write, the advance by 4. -/
def threeParam (f : Word → Word → Except Fault Word) (a b c : Mode) (s : State) : Except Fault State := do
  let x ← readParam a 1 s
  let y ← readParam b 2 s
  let r ← f x y
  let ip' ← nextIp 4 s
  let t ← writeParam c 3 r s
  .ok (t.setIp ip')

/-- The shape of JT and JF (43_jumps.md R140 to R142): the condition, then the target only if the jump is taken,
a fault if it is negative, else the advance by 3. -/
def jumpWhen (taken : Word → Bool) (a b : Mode) (s : State) : Except Fault State := do
  let c ← readParam a 1 s
  if taken c then
    let t ← readParam b 2 s
    if t.toInt < 0 then .error .negJump else .ok (s.setIp t.toNat)
  else
    let ip' ← nextIp 3 s
    .ok (s.setIp ip')

end Sys2Proof.Machine
end

