-- ==== Sys2Proof/Machine/Arithmetic.lean ====
section
/-! DEFINITION. ADD and MUL (41_arithmetic.md). -/

namespace Sys2Proof.Machine

/-- 41_arithmetic.md R121: `write(3, read(1) + read(2))`, the exact integer sum. -/
def execAdd (a b c : Mode) (s : State) : Host.Outcome State Fault Refusal :=
  commit s (threeParam (fun x y => narrow (x.toInt + y.toInt)) a b c s)

/-- 41_arithmetic.md R122: `write(3, read(1) * read(2))`, the exact integer product. -/
def execMul (a b c : Mode) (s : State) : Host.Outcome State Fault Refusal :=
  commit s (threeParam (fun x y => narrow (x.toInt * y.toInt)) a b c s)

end Sys2Proof.Machine
end

