-- ==== Sys2Proof/Machine/BaseHalt.lean ====
section
/-! DEFINITION. ARB and HLT (45_base_halt.md). -/

namespace Sys2Proof.Machine

/-- 45_base_halt.md R160: the new base is the exact sum; a Relative operand uses the old base. -/
def adjustBase (a : Mode) (s : State) : Except Fault State := do
  let d ← readParam a 1 s
  let r ← narrow (s.rb.toInt + d.toInt)
  let ip' ← nextIp 2 s
  .ok ((s.setRb r).setIp ip')

/-- 45_base_halt.md R160. Slots 2 and 3 are unused. -/
def execArb (a _b _c : Mode) (s : State) : Host.Outcome State Fault Refusal :=
  commit s (adjustBase a s)

/-- 45_base_halt.md R161: `st <- Halted`; `ip`, `rb` and Memory unchanged. -/
def execHlt (_a _b _c : Mode) (s : State) : Host.Outcome State Fault Refusal :=
  .next (s.setSt .halted)

end Sys2Proof.Machine
end

