-- ==== Sys2Proof/Machine/Flags.lean ====
section
/-! DEFINITION. The machine has no flags, condition codes or predicates (10_state.md R29): a comparison's result
is the word 1 or 0. These are the comparisons of 44_compare.md and the tests of 43_jumps.md. -/

namespace Sys2Proof.Machine

/-- 44_compare.md: the Boolean result as the word 1 or 0. -/
def boolWord (b : Bool) : Word := if b then 1 else 0

/-- 44_compare.md R150: signed comparison of words. -/
def lessThan (x y : Word) : Word := boolWord (decide (x.toInt < y.toInt))

/-- 44_compare.md R151: equality of the full 64-bit values. -/
def equals (x y : Word) : Word := boolWord (decide (x.toInt = y.toInt))

/-- 43_jumps.md R140: any nonzero condition, including a negative one, is true. -/
def isNonzero (c : Word) : Bool := decide (c.toInt ≠ 0)

/-- 43_jumps.md R141. -/
def isZero (c : Word) : Bool := decide (c.toInt = 0)

end Sys2Proof.Machine
end

