-- ==== Sys2Proof/Machine/Compare.lean ====
section
/-! DEFINITION. LT and EQ (44_compare.md). -/

namespace Sys2Proof.Machine

/-- 44_compare.md R150: `write(3, read(1) < read(2) ? 1 : 0)`, signed. -/
def execLt (a b c : Mode) (s : State) : Host.Outcome State Fault Refusal :=
  commit s (threeParam (fun x y => .ok (lessThan x y)) a b c s)

/-- 44_compare.md R151: `write(3, read(1) = read(2) ? 1 : 0)`. -/
def execEq (a b c : Mode) (s : State) : Host.Outcome State Fault Refusal :=
  commit s (threeParam (fun x y => .ok (equals x y)) a b c s)

end Sys2Proof.Machine
end

