-- ==== Sys2Proof/Machine/InputOutput.lean ====
section
/-! DEFINITION. IN and OUT (42_io.md): the engine step that suspends, and the completion that SUPPLY or CONSUME
performs with the latched mode, the literal, `rb` and Memory as they are then (R131, R133; log entry 16). -/

namespace Sys2Proof.Machine

/-- 42_io.md R130: the engine step of IN only suspends. -/
def execIn (_a _b _c : Mode) (s : State) : Host.Outcome State Fault Refusal :=
  .next (s.setSt .awaitingInput)

/-- 42_io.md R132: the engine step of OUT only suspends. -/
def execOut (_a _b _c : Mode) (s : State) : Host.Outcome State Fault Refusal :=
  .next (s.setSt .hasOutput)

/-- 42_io.md R131: `complete_input(v)`, the deferred write and the advance; the range check comes first. -/
def completeInput (v : Word) (s : State) : Except Fault State := do
  let ip' ← nextIp 2 s
  let t ← writeParam s.dir.mode1 1 v s
  .ok (t.setIp ip')

/-- 42_io.md R133: `complete_output()`, the deferred read and the advance. -/
def completeOutput (s : State) : Except Fault (State × Word) := do
  let v ← readParam s.dir.mode1 1 s
  let ip' ← nextIp 2 s
  .ok (s.setIp ip', v)

end Sys2Proof.Machine
end

