-- ==== Sys2Proof/Machine/Jumps.lean ====
section
/-! DEFINITION. JT and JF (43_jumps.md). -/

namespace Sys2Proof.Machine

/-- 43_jumps.md R140: jump to `read(2)` if `read(1) ≠ 0`. Slot 3 is unused. -/
def execJt (a b _c : Mode) (s : State) : Host.Outcome State Fault Refusal :=
  commit s (jumpWhen isNonzero a b s)

/-- 43_jumps.md R141: jump to `read(2)` if `read(1) = 0`. Slot 3 is unused. -/
def execJf (a b _c : Mode) (s : State) : Host.Outcome State Fault Refusal :=
  commit s (jumpWhen isZero a b s)

end Sys2Proof.Machine
end

