-- ==== Sys2Proof/Machine/Dispatch.lean ====
section
/-! DEFINITION. 40_engine.md R104, R105: the closed dispatch, one handler per opcode. -/

namespace Sys2Proof.Machine

/-- 40_engine.md R105: `execute(op)`. -/
def exec (i : Instr) (s : State) : Host.Outcome State Fault Refusal :=
  match i with
  | .add a b c => Sys2Proof.Machine.execAdd a b c s
  | .mul a b c => Sys2Proof.Machine.execMul a b c s
  | .inp a b c => Sys2Proof.Machine.execIn a b c s
  | .out a b c => Sys2Proof.Machine.execOut a b c s
  | .jt a b c => Sys2Proof.Machine.execJt a b c s
  | .jf a b c => Sys2Proof.Machine.execJf a b c s
  | .lt a b c => Sys2Proof.Machine.execLt a b c s
  | .eq a b c => Sys2Proof.Machine.execEq a b c s
  | .arb a b c => Sys2Proof.Machine.execArb a b c s
  | .hlt a b c => Sys2Proof.Machine.execHlt a b c s

end Sys2Proof.Machine
end

