-- ==== Sys2Proof/Machine/Step.lean ====
section
/-! DEFINITION. One step of the machine: the engine step of 40_engine.md R106 while Running, nothing otherwise
(R92, R101; log entry 6). -/

namespace Sys2Proof.Machine

/-- 40_engine.md R106: fetch, decode (which writes `dir`), execute. A decode fault is the fault of
60_exceptions.md R170. Outside Running the engine executes nothing and nothing moves (40_engine.md R92). -/
def step (s : State) : Host.Outcome State Fault Refusal :=
  match s.st with
  | .running =>
    match fetchDecode s with
    | .ok i => exec i (latch i s)
    | .error r => .next (raiseFault r s)
  | .awaitingInput => .next s
  | .hasOutput => .next s
  | .halted => .next s
  | .faulted => .next s

/-- `s` with an instruction, numbered as spec/opcode_table.json numbers it, placed at `ip` and the engine Running,
so that the very next step fetches and runs it (log entry 9). -/
def State.withFetchWord (s : State) (nbits w : Nat) : State :=
  (placeWords s.ip [tableWord nbits w 0, tableWord nbits w 1, tableWord nbits w 2, tableWord nbits w 3] s).setSt .running

end Sys2Proof.Machine
end

