-- ==== Sys2Proof/Machine/Commands.lean ====
section
/-! DEFINITION. The host commands to one machine (40_engine.md R90 to R101) and LOAD (70_reset_and_hazards.md R190).
RUN, SUPPLY and CONSUME run the engine and may never return (R93): each takes a budget of engine steps and says
whether it returned within it (log entry 7). -/

namespace Sys2Proof.Machine

open Sys2Proof.Config

/-- 40_engine.md R90: the commands to an existing machine. -/
inductive Command where
  | run
  | supply (v : Word)
  | consume
  | peek (address : Nat)
  | poke (address : Nat) (v : Word)
  | state
  | duplicate
deriving DecidableEq, Repr

/-- What a host gets back (40_engine.md R101). -/
inductive Reply where
  /-- the command returned with no result -/
  | done
  /-- `some v` of CONSUME, or the word PEEK read -/
  | word (v : Word)
  /-- `none` of CONSUME -/
  | noValue
  /-- the execution state STATE gives -/
  | execState (e : ExecState)
  /-- the new machine DUPLICATE makes -/
  | machine (t : State)
  /-- the command has not returned: the engine is still Running when the step budget is spent (R93) -/
  | notReturned
deriving DecidableEq, Repr

/-- 40_engine.md R92: `while st = Running: step()`, at most `fuel` engine steps. -/
def runLoop : Nat → State → Host.Outcome State Fault Refusal
  | 0, s => .next s
  | fuel + 1, s =>
    match s.st with
    | .running =>
      match step s with
      | .next t => runLoop fuel t
      | .fault r => .fault r
      | .refused r => .refused r
    | .awaitingInput => .next s
    | .hasOutput => .next s
    | .halted => .next s
    | .faulted => .next s

/-- RUN from `s`, then the reply `reply` if it returned within the budget. -/
def runThen (fuel : Nat) (reply : Reply) (s : State) : Host.Outcome (State × Reply) Fault Refusal :=
  match runLoop fuel s with
  | .next t => .next (t, if t.st = .running then .notReturned else reply)
  | .fault r => .fault r
  | .refused r => .refused r

/-- SUPPLY out of turn (40_engine.md R94, D18): nothing, or in Running and HasOutput the fault `FR_MISORDER` when
the parameter says so; in the terminal states nothing under both settings. -/
def supplyOutOfTurn (s : State) : State :=
  match s.params.misorderSupply with
  | .noop => s
  | .fault => if s.st = .running ∨ s.st = .hasOutput then raiseFault .misorder s else s

/-- 40_engine.md R94, the resume of SUPPLY in AwaitingInput before it runs the engine: the deferred write and the
advance, then Running; or Faulted. -/
def resumeInput (v : Word) (s : State) : State :=
  match completeInput v s with
  | .ok t => t.setSt .running
  | .error r => raiseFault r s

/-- 40_engine.md R94: SUPPLY(`v`). -/
def supply (fuel : Nat) (v : Word) (s : State) : Host.Outcome (State × Reply) Fault Refusal :=
  match s.st with
  | .awaitingInput => runThen fuel .done (resumeInput v s)
  | .running => .next (supplyOutOfTurn s, .done)
  | .hasOutput => .next (supplyOutOfTurn s, .done)
  | .halted => .next (supplyOutOfTurn s, .done)
  | .faulted => .next (supplyOutOfTurn s, .done)

/-- 40_engine.md R95, the resume of CONSUME in HasOutput before it runs the engine: the state, and the value, which
is computed before resuming; no value if the read or the advance faults. -/
def resumeOutput (s : State) : State × Reply :=
  match completeOutput s with
  | .ok (t, v) => (t.setSt .running, .word v)
  | .error r => (raiseFault r s, .noValue)

/-- 40_engine.md R95: CONSUME. -/
def consume (fuel : Nat) (s : State) : Host.Outcome (State × Reply) Fault Refusal :=
  match s.st with
  | .hasOutput => runThen fuel (resumeOutput s).2 (resumeOutput s).1
  | .running => .next (s, .noValue)
  | .awaitingInput => .next (s, .noValue)
  | .halted => .next (s, .noValue)
  | .faulted => .next (s, .noValue)

/-- 20_memory.md R45: PEEK; an address above `ADDR_MAX` reads 0. -/
def peek (a : Nat) (s : State) : Word := if a ≤ addrMax then memRead a s else 0

/-- 20_memory.md R46: POKE, in every execution state; refused at or past `MEM_LIMIT`. -/
def poke (a : Nat) (v : Word) (s : State) : Host.Outcome State Fault Refusal :=
  if a < s.params.memLimit then .next (s.store a v) else .refused .pokeBeyondLimit

/-- 40_engine.md R90: one host command to a machine, with a budget of `fuel` engine steps. -/
def perform (fuel : Nat) (c : Command) (s : State) : Host.Outcome (State × Reply) Fault Refusal :=
  match c with
  | .run => runThen fuel .done s
  | .supply v => supply fuel v s
  | .consume => consume fuel s
  | .peek a => .next (s, .word (peek a s))
  | .poke a v =>
    match poke a v s with
    | .next t => .next (t, .done)
    | .fault r => .fault r
    | .refused r => .refused r
  | .state => .next (s, .execState s.st)
  | .duplicate => .next (s, .machine s)

/-- The cells of a word image placed at rising addresses from `a`, in canonical form. -/
def imageCells : Nat → List Word → List (Nat × Word)
  | _, [] => []
  | a, w :: rest => if w = 0 then imageCells (a + 1) rest else (a, w) :: imageCells (a + 1) rest

/-- 70_reset_and_hazards.md R190: LOAD. `latch` is what the implementation leaves in `dir`, which the rule leaves
unspecified: any value (log entry 4). -/
def load (p : Params) (latch : Dir) (image : List Word) : Host.Outcome State Fault Refusal :=
  if image.length ≤ p.memLimit then
    .next { mem := { cells := imageCells 0 image }, len := image.length, ip := 0, rb := 0, st := .running,
            dir := latch, params := p }
  else .refused .imageBeyondLimit

/-- A host's session with one machine: commands one at a time, each with its own step budget (40_engine.md R91).
A refused command changes nothing (20_memory.md R46); a command that has not returned ends the session (R93). -/
def session : List (Nat × Command) → State → State
  | [], s => s
  | (fuel, c) :: rest, s =>
    match perform fuel c s with
    | .next (t, .notReturned) => t
    | .next (t, .done) => session rest t
    | .next (t, .word _) => session rest t
    | .next (t, .noValue) => session rest t
    | .next (t, .execState _) => session rest t
    | .next (t, .machine _) => session rest t
    | .fault _ => s
    | .refused _ => session rest s

end Sys2Proof.Machine
end

