-- ==== Sys2Proof/Machine/World.lean ====
section
/-! DEFINITION. Several machines (40_engine.md R102, 60_exceptions.md R183): a list of machines that share nothing,
the eight host commands of R90 on it, and sessions of them (log entry 11). -/

namespace Sys2Proof.Machine

/-- The machines the host has, each addressed by its place; LOAD and DUPLICATE add one at the end. -/
structure World where
  machines : List State
deriving DecidableEq, Repr

/-- 40_engine.md R90: a host command, LOAD or a command to machine `i`. -/
inductive HostCommand where
  | load (p : Params) (latch : Dir) (image : List Word)
  | on (i : Nat) (c : Command)
deriving DecidableEq, Repr

/-- The machine a command's reply adds to the world: DUPLICATE's copy (40_engine.md R97). -/
def Reply.newMachines : Reply → List State
  | .done => []
  | .word _ => []
  | .noValue => []
  | .execState _ => []
  | .machine t => [t]
  | .notReturned => []

/-- 40_engine.md R102: a command to one machine changes that machine only; a new machine stands at the end. -/
def World.command (fuel : Nat) (h : HostCommand) (w : World) : Host.Outcome (World × Reply) Fault Refusal :=
  match h with
  | .load p latch image =>
    match Sys2Proof.Machine.load p latch image with
    | .next s => .next ({ machines := w.machines ++ [s] }, .machine s)
    | .fault r => .fault r
    | .refused r => .refused r
  | .on i c =>
    match w.machines[i]? with
    | none => .refused .noSuchMachine
    | some s =>
      match perform fuel c s with
      | .next (t, reply) => .next ({ machines := w.machines.set i t ++ reply.newMachines }, reply)
      | .fault r => .fault r
      | .refused r => .refused r

/-- The machine a host command is given to; LOAD is given to none. -/
def HostCommand.target : HostCommand → Option Nat
  | .load _ _ _ => none
  | .on i _ => some i

/-- A host's session with its machines, `busy` naming those with a command that has not returned. Commands to
different machines come in any order (40_engine.md R102); a machine gets no command before its last one has
returned (R91, R93), so such a command is passed over. A refused command changes nothing (20_memory.md R46). -/
def World.sessionFrom : List (Nat × HostCommand) → List Nat → World → World
  | [], _, w => w
  | (fuel, h) :: rest, busy, w =>
    if h.target.any busy.contains then World.sessionFrom rest busy w
    else
      match World.command fuel h w with
      | .next (w', reply) =>
        World.sessionFrom rest (if reply = .notReturned then h.target.toList ++ busy else busy) w'
      | .fault _ => World.sessionFrom rest busy w
      | .refused _ => World.sessionFrom rest busy w

/-- A host's session from a moment at which every command has returned. -/
def World.session (cs : List (Nat × HostCommand)) (w : World) : World := World.sessionFrom cs [] w

/-- The commands of a session that are given to machine `i`, in their order. -/
def commandsTo (i : Nat) : List (Nat × HostCommand) → List (Nat × Command)
  | [] => []
  | (_, .load _ _ _) :: rest => commandsTo i rest
  | (fuel, .on j c) :: rest => if j = i then (fuel, c) :: commandsTo i rest else commandsTo i rest

end Sys2Proof.Machine
end

