-- ==== Sys2Proof/Safety.lean ====
section
/-! DEFINITION. The terms claims use: the invariant of a machine's state, and the terminal states. -/

namespace Sys2Proof.Machine

open Sys2Proof.Config

/-- 10_state.md R27, 40_engine.md R108: while the machine is suspended, the latch holds the IN or OUT that
suspended it. -/
abbrev State.LatchMatches (s : State) : Prop :=
  (s.st = .awaitingInput → s.dir.op = .inp) ∧ (s.st = .hasOutput → s.dir.op = .out)

/-- What holds of every machine between engine steps and between commands: Memory is in canonical form and lists
only cells below the length (10_state.md R32), the length is within `MEM_LIMIT` (20_memory.md R43, R46), `ip` is an
address (10_state.md R21), the parameters are in range (00_scope.md R9), and the latch fits the suspension. -/
abbrev State.Inv (s : State) : Prop :=
  s.mem.wf ∧ (∀ x ∈ s.mem.cells, x.1 < s.len) ∧ s.len ≤ s.params.memLimit ∧ s.params.wf ∧ s.ip ≤ addrMax ∧
    s.LatchMatches

/-- 00_scope.md R14: Halted or Faulted. -/
abbrev State.Terminal (s : State) : Prop := s.st = .halted ∨ s.st = .faulted

/-- A safe run never faults. -/
abbrev State.Safe (s : State) : Prop := s.st ≠ .faulted

/-- The state a fault leaves (60_exceptions.md R171): only `st` differs. -/
abbrev State.faultedAt (s : State) : State := { s with st := .faulted }

/-- ADD, MUL, LT and EQ in modes `a b c` have what they need (41_arithmetic.md R121, 44_compare.md R150): `read(1)`
gives `x`, `read(2)` gives `y`, the advance stays in the address space, and `write(3, _)` goes to `d`, below
`MEM_LIMIT`. What `readParam` and `destAddr` give for each mode is 30_encoding.md R72 and R73. -/
abbrev ThreeParamReady (a b c : Mode) (s : State) (x y : Word) (d : Nat) : Prop :=
  readParam a 1 s = .ok x ∧ readParam b 2 s = .ok y ∧ s.ip + 4 ≤ addrMax ∧ destAddr c 3 s = .ok d ∧
    d < s.params.memLimit

/-- The pending IN can be completed (42_io.md R131): the advance stays in the address space and `write(1, _)` with
the latched mode goes to `d`, below `MEM_LIMIT`. -/
abbrev InputReady (s : State) (d : Nat) : Prop :=
  s.ip + 2 ≤ addrMax ∧ destAddr s.dir.mode1 1 s = .ok d ∧ d < s.params.memLimit

/-- The pending OUT can be completed (42_io.md R133): `read(1)` with the latched mode gives `x`, and the advance stays
in the address space. -/
abbrev OutputReady (s : State) (x : Word) : Prop :=
  readParam s.dir.mode1 1 s = .ok x ∧ s.ip + 2 ≤ addrMax

/-- Instruction `i` with the modes of slots 1, 2, 3 written `CBAoo` (30_encoding.md R60): its word is
`op + 100*A + 1000*B + 10000*C`, that word decodes to it, and it has `length` words (R61). -/
abbrev EncodesAs (i : Instr) (op length : Nat) (a b c : Mode) : Prop :=
  (encode i).toNat = op + 100 * a.digit + 1000 * b.digit + 10000 * c.digit ∧ decode (encode i) = .ok i ∧
    i.opcode.length = length

/-- The latch contents `(op, mode1, mode2, mode3)` of an instruction (10_state.md R27). -/
abbrev latchOf (i : Instr) : Dir := { op := i.opcode, mode1 := i.mode1, mode2 := i.mode2, mode3 := i.mode3 }

/-- The execution state in which a command runs the engine (40_engine.md R92, R94, R95); PEEK, POKE, STATE and
DUPLICATE never do (R96, R97). -/
def Command.engineState : Command → Option ExecState
  | .run => some .running
  | .supply _ => some .awaitingInput
  | .consume => some .hasOutput
  | .peek _ => none
  | .poke _ _ => none
  | .state => none
  | .duplicate => none

/-- Command `c` given to `s` runs the engine: it is RUN, SUPPLY or CONSUME in its turn. -/
abbrev RunsEngine (c : Command) (s : State) : Prop := c.engineState = some s.st

/-- No slot the instruction uses is in Relative mode (30_encoding.md R67: the used slots are `1 .. paramCount`). -/
abbrev NoRelativeSlot (i : Instr) : Prop :=
  (1 ≤ i.opcode.paramCount → i.mode1 ≠ .relative) ∧ (2 ≤ i.opcode.paramCount → i.mode2 ≠ .relative) ∧
    (3 ≤ i.opcode.paramCount → i.mode3 ≠ .relative)

end Sys2Proof.Machine
end

