-- ==== Sys2Proof/Certificates/Slice0/Obligations.lean ====
section
/-! DEFINITION. The statements for the provers. Each docstring names the rule of spec/ it formalises; where a clause
rests on a decision the spec marks as its own (D<n> of 92_eei_decisions.md) or on a choice of the model (a log
entry), it says so. -/

open Sys2Proof Sys2Proof.Machine Sys2Proof.Config

/-! ## Encoding and decoding -/

/-- 30_encoding.md R82 (the spec's decision D19): every instruction's word is the canonical one, and decoding it gives
the instruction back, at every mode of every slot. -/
def Obligations.EncodeThenDecodeIsIdentity : Prop :=
  ∀ i : Instr,
    (encode i).toNat = i.opcode.number + 100 * i.mode1.digit + 1000 * i.mode2.digit + 10000 * i.mode3.digit ∧
      decode (encode i) = .ok i

/-- 30_encoding.md R77 (derived there, from R62 and R65 with D6 and D7): a word decodes to an instruction exactly when
it is not negative and agrees with the instruction's canonical word in its five low decimal digits. -/
def Obligations.DecodeAcceptsExactlyCongruentWords : Prop :=
  ∀ (W : Word) (i : Instr),
    decode W = .ok i ↔ 0 ≤ W.toInt ∧ W.toNat % 100000 = (encode i).toNat

/-- 30_encoding.md R68, the whole pseudocode: a negative word, an undefined opcode and a mode digit above 2 in any of
the three slots are faults; otherwise the word is the opcode's instruction with the three modes, and the engine step
goes on with them latched in `dir`. -/
def Obligations.DecodeFollowsDecimalDigits : Prop :=
  ∀ W : Word,
    (W.toInt < 0 → decode W = .error .negWord) ∧
    (0 ≤ W.toInt → (∀ op : Opcode, op.number ≠ W.toNat % 100) → decode W = .error .opcode) ∧
    (0 ≤ W.toInt → (∃ op : Opcode, op.number = W.toNat % 100) →
      (2 < W.toNat / 100 % 10 ∨ 2 < W.toNat / 1000 % 10 ∨ 2 < W.toNat / 10000 % 10) → decode W = .error .mode) ∧
    (∀ (op : Opcode) (a b c : Mode), 0 ≤ W.toInt → op.number = W.toNat % 100 → a.digit = W.toNat / 100 % 10 →
      b.digit = W.toNat / 1000 % 10 → c.digit = W.toNat / 10000 % 10 →
        decode W = .ok (op.instr a b c) ∧
        ∀ s : State, s.st = .running → s.mem.read s.ip = W →
          step s = exec (op.instr a b c) { s with dir := { op := op, mode1 := a, mode2 := b, mode3 := c } }) ∧
    (∀ (r : Reject) (s : State), decode W = .error r → s.st = .running → s.mem.read s.ip = W →
      step s = .next { s with st := .faulted })

/-- 30_encoding.md R65 (the spec's decision D7, log entry 15): the digits at `10^5` and above are ignored, whether the
word is an instruction or is rejected. -/
def Obligations.HighDigitsAreIgnored : Prop :=
  ∀ V W : Word, 0 ≤ V.toInt → 0 ≤ W.toInt → V.toNat % 100000 = W.toNat % 100000 → decode V = decode W

/-- Words written out from 30_encoding.md R60 and the examples of the instruction files decode to what they stand for,
and the illegal examples of 45_base_halt.md are rejected. -/
def Obligations.SampleWordsDecode : Prop :=
  decode 1 = .ok (.add .position .position .position) ∧
  decode 21001 = .ok (.add .position .immediate .relative) ∧
  decode 1102 = .ok (.mul .immediate .immediate .position) ∧
  decode 203 = .ok (.inp .relative .position .position) ∧
  decode 104 = .ok (.out .immediate .position .position) ∧
  decode 1105 = .ok (.jt .immediate .immediate .position) ∧
  decode 2106 = .ok (.jf .immediate .relative .position) ∧
  decode 1107 = .ok (.lt .immediate .immediate .position) ∧
  decode 1008 = .ok (.eq .position .immediate .position) ∧
  decode 209 = .ok (.arb .relative .position .position) ∧
  decode 22299 = .ok (.hlt .relative .relative .relative) ∧
  decode 0 = .error .opcode ∧ decode 98 = .error .opcode ∧ decode 30099 = .error .mode ∧
  decode (BitVec.ofInt 64 (-1)) = .error .negWord

/-- 30_encoding.md R61: the parameter count and the length each opcode fixes, at most `MAX_INSN_WORDS`, and that the
assembled instruction has exactly those words. -/
def Obligations.OpcodeFixesLength : Prop :=
  (∀ op : Opcode,
    (op.number ∈ [1, 2, 7, 8] → op.paramCount = 3 ∧ op.length = 4) ∧
    (op.number ∈ [3, 4, 9] → op.paramCount = 1 ∧ op.length = 2) ∧
    (op.number ∈ [5, 6] → op.paramCount = 2 ∧ op.length = 3) ∧
    (op.number = 99 → op.paramCount = 0 ∧ op.length = 1) ∧
    op.number ∈ [1, 2, 3, 4, 5, 6, 7, 8, 9, 99] ∧ op.length ≤ maxInsnWords) ∧
  ∀ (i : Instr) (l1 l2 l3 : Word), (assemble i l1 l2 l3).length = i.opcode.length

/-! ## The step -/

/-- 40_engine.md R106 (derived there), with the latch of 10_state.md R27: when the word at `ip` decodes to an
instruction, the step of a Running machine is that instruction, executed with its decode latched. -/
def Obligations.StepRunsDecodedInstruction : Prop :=
  ∀ (s : State) (i : Instr), s.st = .running → decode (s.mem.read s.ip) = .ok i →
    step s = exec i { s with dir := latchOf i }

/-- 45_base_halt.md R162 (with the spec's decision D6 for negative words): a word whose opcode is none of the ten, or
which is negative, faults at decode and nothing but `st` changes; so does a zero word, which every never-written cell
holds. -/
def Obligations.IllegalOpcodeFaultsAtDecode : Prop :=
  ∀ s : State, s.st = .running →
    ((s.mem.read s.ip).toInt < 0 ∨ (s.mem.read s.ip).toNat % 100 ∉ [1, 2, 3, 4, 5, 6, 7, 8, 9, 99] ∨
      s.mem.read s.ip = 0) →
    step s = .next { s with st := .faulted }

/-- From 60_exceptions.md R170 and 40_engine.md R100: every instruction and every step of every state answers a next
state; a fault of the machine is the Faulted state, never a stop of the model (log entry 5). -/
def Obligations.EveryStepAnswersNext : Prop :=
  (∀ (i : Instr) (s : State), ∃ t, exec i s = .next t) ∧ ∀ s : State, ∃ t, step s = .next t

/-! ## The Operand Resolver and Memory -/

/-- 30_encoding.md R70 (the spec's decision D8): the literal of slot `k` is the word at `ip + k`, a fault past
`ADDR_MAX`; a parameter word at or past the length reads 0. -/
def Obligations.ParameterFetchReadsNextWords : Prop :=
  ∀ (k : Nat) (s : State),
    (s.ip + k ≤ addrMax → fetchParam k s = .ok (s.mem.read (s.ip + k))) ∧
    (addrMax < s.ip + k → fetchParam k s = .error .addrSpace) ∧
    (s.Inv → s.len ≤ s.ip + k → s.ip + k ≤ addrMax → fetchParam k s = .ok 0)

/-- 30_encoding.md R74 (the spec's decision D8): the Relative address is the exact sum of literal and base, a fault
below 0 or above `ADDR_MAX`, with no wrap-around. -/
def Obligations.RelativeAddressIsExactSum : Prop :=
  ∀ (L : Word) (s : State),
    (L.toInt + s.rb.toInt < 0 → eaRel L s = .error .negAddr) ∧
    ((addrMax : Int) < L.toInt + s.rb.toInt → eaRel L s = .error .addrSpace) ∧
    (∀ a : Nat, (a : Int) = L.toInt + s.rb.toInt → a ≤ addrMax → eaRel L s = .ok a)

/-- 30_encoding.md R72, the whole of `read(k)`: Position reads at the literal, Immediate is the literal, Relative reads
at `ea_rel` of it; a negative Position literal faults, and a fault of the fetch or of the address is the read's. -/
def Obligations.ReadResolvesByMode : Prop :=
  ∀ (k : Nat) (s : State),
    (∀ (mode : Mode) (r : Fault), fetchParam k s = .error r → readParam mode k s = .error r) ∧
    ∀ L : Word, fetchParam k s = .ok L →
      (L.toInt < 0 → readParam .position k s = .error .negAddr) ∧
      (0 ≤ L.toInt → readParam .position k s = .ok (s.mem.read L.toNat)) ∧
      readParam .immediate k s = .ok L ∧
      (∀ r, eaRel L s = .error r → readParam .relative k s = .error r) ∧
      (∀ a, eaRel L s = .ok a → readParam .relative k s = .ok (s.mem.read a))

/-- 30_encoding.md R73, the whole of `write(k, v)`: Immediate always faults; Position and Relative store at the literal
and at `ea_rel` of it; every check comes before the `MemWrite`, and a write that faults answers no state. -/
def Obligations.WriteResolvesByMode : Prop :=
  ∀ (k : Nat) (v : Word) (s : State),
    writeParam .immediate k v s = .error .immWrite ∧
    (∀ r, fetchParam k s = .error r →
      writeParam .position k v s = .error r ∧ writeParam .relative k v s = .error r) ∧
    ∀ L : Word, fetchParam k s = .ok L →
      (L.toInt < 0 → writeParam .position k v s = .error .negAddr) ∧
      (0 ≤ L.toInt → writeParam .position k v s = memWrite L.toNat v s) ∧
      (∀ r, eaRel L s = .error r → writeParam .relative k v s = .error r) ∧
      (∀ a, eaRel L s = .ok a → writeParam .relative k v s = memWrite a v s)

/-- 20_memory.md R43 (the spec's decision D4): `MemWrite` at or past `MEM_LIMIT` faults; below it, the cell holds the
value, every other cell reads as before, the length becomes `max(len, a + 1)`, and nothing else changes. -/
def Obligations.MemWriteStoresOneWord : Prop :=
  ∀ (a : Nat) (v : Word) (s : State), s.mem.wf →
    (s.params.memLimit ≤ a → memWrite a v s = .error .memLimit) ∧
    (a < s.params.memLimit →
      ∃ t, memWrite a v s = .ok t ∧ t.mem.read a = v ∧ (∀ b, b ≠ a → t.mem.read b = s.mem.read b) ∧ t.mem.wf ∧
        t.len = max s.len (a + 1) ∧ t.ip = s.ip ∧ t.rb = s.rb ∧ t.st = s.st ∧ t.dir = s.dir ∧ t.params = s.params)

/-- 20_memory.md R42: a read at or past the current length yields 0, in every state that meets the invariant. -/
def Obligations.ReadPastLengthIsZero : Prop :=
  ∀ (s : State) (a : Nat), s.Inv → s.len ≤ a → memRead a s = 0 ∧ peek a s = 0

/-- 41_arithmetic.md R120 (the spec's decision D5): a result is stored only if the exact integer is a word, and then the
word holds exactly it; otherwise the fault is the overflow. -/
def Obligations.ArithmeticNeverTruncates : Prop :=
  ∀ v : Int,
    (∀ w : Word, narrow v = .ok w ↔ w.toInt = v) ∧ ((¬ ∃ w : Word, w.toInt = v) → narrow v = .error .overflow)

/-! ## The instructions -/

/-- 41_arithmetic.md R121 whole: ADD stores the exact sum and advances by 4; on any of its exceptions `m`, `rb` and `ip`
are unchanged and the machine is Faulted; its encoding. (The checks FR_OVERFLOW, FR_ADDRSPACE and FR_MEMLIMIT in R121's
text come from the spec's decisions D5, D8 and D4.) -/
def Obligations.AddStoresExactSum : Prop :=
  ∀ (a b c : Mode) (s : State),
    (∀ (x y : Word) (d : Nat), ThreeParamReady a b c s x y d → Fits (x.toInt + y.toInt) →
      ∃ r : Word, r.toInt = x.toInt + y.toInt ∧
        exec (.add a b c) s =
          .next { s with mem := s.mem.write d r, len := max s.len (d + 1), ip := s.ip + 4 }) ∧
    ((¬ ∃ x y d, ThreeParamReady a b c s x y d ∧ Fits (x.toInt + y.toInt)) →
      exec (.add a b c) s = .next { s with st := .faulted }) ∧
    EncodesAs (.add a b c) 1 4 a b c

/-- 41_arithmetic.md R122 (with the spec's decisions D5, D8 and D4): MUL stores the exact product and advances by 4; on
any of its exceptions nothing but `st` changes; its encoding. -/
def Obligations.MulStoresExactProduct : Prop :=
  ∀ (a b c : Mode) (s : State),
    (∀ (x y : Word) (d : Nat), ThreeParamReady a b c s x y d → Fits (x.toInt * y.toInt) →
      ∃ r : Word, r.toInt = x.toInt * y.toInt ∧
        exec (.mul a b c) s =
          .next { s with mem := s.mem.write d r, len := max s.len (d + 1), ip := s.ip + 4 }) ∧
    ((¬ ∃ x y d, ThreeParamReady a b c s x y d ∧ Fits (x.toInt * y.toInt)) →
      exec (.mul a b c) s = .next { s with st := .faulted }) ∧
    EncodesAs (.mul a b c) 2 4 a b c

/-- 44_compare.md R150 whole: LT stores 1 if `read(1) < read(2)` as signed values, else 0, and advances by 4; on any of
its exceptions nothing but `st` changes; its encoding. -/
def Obligations.LtStoresSignedComparison : Prop :=
  ∀ (a b c : Mode) (s : State),
    (∀ (x y : Word) (d : Nat), ThreeParamReady a b c s x y d →
      exec (.lt a b c) s =
        .next { s with mem := s.mem.write d (if x.toInt < y.toInt then 1 else 0), len := max s.len (d + 1),
                       ip := s.ip + 4 }) ∧
    ((¬ ∃ x y d, ThreeParamReady a b c s x y d) → exec (.lt a b c) s = .next { s with st := .faulted }) ∧
    EncodesAs (.lt a b c) 7 4 a b c

/-- 44_compare.md R151 whole: EQ stores 1 if the two full words are equal, else 0, and advances by 4; on any of its
exceptions nothing but `st` changes; its encoding. -/
def Obligations.EqStoresEquality : Prop :=
  ∀ (a b c : Mode) (s : State),
    (∀ (x y : Word) (d : Nat), ThreeParamReady a b c s x y d →
      exec (.eq a b c) s =
        .next { s with mem := s.mem.write d (if x = y then 1 else 0), len := max s.len (d + 1), ip := s.ip + 4 }) ∧
    ((¬ ∃ x y d, ThreeParamReady a b c s x y d) → exec (.eq a b c) s = .next { s with st := .faulted }) ∧
    EncodesAs (.eq a b c) 8 4 a b c

/-- 43_jumps.md R140 whole: JT jumps to `read(2)` when `read(1)` is not 0, a fault if that is negative, and otherwise
advances by 3 without resolving slot 2; its exceptions; its encoding. -/
def Obligations.JtJumpsWhenNonzero : Prop :=
  ∀ (a b c : Mode) (s : State),
    (∀ r, readParam a 1 s = .error r → exec (.jt a b c) s = .next { s with st := .faulted }) ∧
    (∀ x : Word, readParam a 1 s = .ok x →
      (x.toInt ≠ 0 →
        (∀ r, readParam b 2 s = .error r → exec (.jt a b c) s = .next { s with st := .faulted }) ∧
        ∀ t : Word, readParam b 2 s = .ok t →
          (t.toInt < 0 → exec (.jt a b c) s = .next { s with st := .faulted }) ∧
          (0 ≤ t.toInt → exec (.jt a b c) s = .next { s with ip := t.toNat })) ∧
      (x.toInt = 0 →
        (s.ip + 3 ≤ addrMax → exec (.jt a b c) s = .next { s with ip := s.ip + 3 }) ∧
        (addrMax < s.ip + 3 → exec (.jt a b c) s = .next { s with st := .faulted }))) ∧
    EncodesAs (.jt a b c) 5 3 a b c

/-- 43_jumps.md R141 whole: JF, as JT with "taken" meaning `read(1) = 0`. -/
def Obligations.JfJumpsWhenZero : Prop :=
  ∀ (a b c : Mode) (s : State),
    (∀ r, readParam a 1 s = .error r → exec (.jf a b c) s = .next { s with st := .faulted }) ∧
    (∀ x : Word, readParam a 1 s = .ok x →
      (x.toInt = 0 →
        (∀ r, readParam b 2 s = .error r → exec (.jf a b c) s = .next { s with st := .faulted }) ∧
        ∀ t : Word, readParam b 2 s = .ok t →
          (t.toInt < 0 → exec (.jf a b c) s = .next { s with st := .faulted }) ∧
          (0 ≤ t.toInt → exec (.jf a b c) s = .next { s with ip := t.toNat })) ∧
      (x.toInt ≠ 0 →
        (s.ip + 3 ≤ addrMax → exec (.jf a b c) s = .next { s with ip := s.ip + 3 }) ∧
        (addrMax < s.ip + 3 → exec (.jf a b c) s = .next { s with st := .faulted }))) ∧
    EncodesAs (.jf a b c) 6 3 a b c

/-- 45_base_halt.md R160 (with the spec's decisions D5 and D8): ARB adds `read(1)` to the relative base exactly and
advances by 2; on any of its exceptions nothing but `st` changes; its encoding. -/
def Obligations.ArbAddsToRelativeBase : Prop :=
  ∀ (a b c : Mode) (s : State),
    (∀ x : Word, readParam a 1 s = .ok x → Fits (s.rb.toInt + x.toInt) → s.ip + 2 ≤ addrMax →
      ∃ r : Word, r.toInt = s.rb.toInt + x.toInt ∧
        exec (.arb a b c) s = .next { s with rb := r, ip := s.ip + 2 }) ∧
    ((¬ ∃ x, readParam a 1 s = .ok x ∧ Fits (s.rb.toInt + x.toInt) ∧ s.ip + 2 ≤ addrMax) →
      exec (.arb a b c) s = .next { s with st := .faulted }) ∧
    EncodesAs (.arb a b c) 9 2 a b c

/-- 45_base_halt.md R161 (with the spec's decision D14 for `ip`): HLT halts in every mode of its unused slots and at
every address, and changes nothing but `st`; its encoding. -/
def Obligations.HltHaltsInPlace : Prop :=
  ∀ (a b c : Mode) (s : State),
    exec (.hlt a b c) s = .next { s with st := .halted } ∧ EncodesAs (.hlt a b c) 99 1 a b c

/-- 42_io.md R130 and R132 (the spec's decision D9): the engine steps of IN and OUT only suspend the machine, in every
mode, an Immediate IN and an operand that will fault among them; their encodings. -/
def Obligations.InAndOutStepsOnlySuspend : Prop :=
  ∀ (a b c : Mode) (s : State),
    exec (.inp a b c) s = .next { s with st := .awaitingInput } ∧
    exec (.out a b c) s = .next { s with st := .hasOutput } ∧
    EncodesAs (.inp a b c) 3 2 a b c ∧ EncodesAs (.out a b c) 4 2 a b c

/-- 42_io.md R130 and R131 (the spec's decisions D9, D10): an IN that is stepped and then supplied stores the value at
the address of its slot 1 and has advanced by 2. -/
def Obligations.InputStoresSuppliedValue : Prop :=
  ∀ (a b c : Mode) (v : Word) (d : Nat) (s : State), s.st = .running →
    decode (s.mem.read s.ip) = .ok (.inp a b c) → s.ip + 2 ≤ addrMax → destAddr a 1 s = .ok d →
    d < s.params.memLimit →
    ∃ t, step s = .next t ∧ t.st = .awaitingInput ∧
      resumeInput v t =
        { s with mem := s.mem.write d v, len := max s.len (d + 1), ip := s.ip + 2, dir := latchOf (.inp a b c) }

/-- 42_io.md R132 and R133 (the spec's decisions D9, D10): an OUT that is stepped and then consumed gives the value of
its slot 1 and has advanced by 2. -/
def Obligations.OutputDeliversOperand : Prop :=
  ∀ (a b c : Mode) (x : Word) (s : State), s.st = .running →
    decode (s.mem.read s.ip) = .ok (.out a b c) → readParam a 1 s = .ok x → s.ip + 2 ≤ addrMax →
    ∃ t, step s = .next t ∧ t.st = .hasOutput ∧
      resumeOutput t = ({ s with ip := s.ip + 2, dir := latchOf (.out a b c) }, .word x)

/-- 30_encoding.md R67 and R77: the mode of a slot beyond the parameter count changes nothing the instruction does. -/
def Obligations.UnusedModesHaveNoEffect : Prop :=
  ∀ (a b c a' b' c' : Mode) (s : State),
    exec (.inp a b c) s = exec (.inp a b' c') s ∧ exec (.out a b c) s = exec (.out a b' c') s ∧
    exec (.jt a b c) s = exec (.jt a b c') s ∧ exec (.jf a b c) s = exec (.jf a b c') s ∧
    exec (.arb a b c) s = exec (.arb a b' c') s ∧ exec (.hlt a b c) s = exec (.hlt a' b' c') s

/-! ## Frames and whole-machine rules -/

/-- The frame of ADD, MUL, LT and EQ (40_engine.md R107: at most one write): whatever next state they give, `rb`, `dir`
and the parameters are unchanged, `st` is unchanged or Faulted, and every cell but the one `destAddr c 3 s` names reads
as before; no cell changes when that is a fault. -/
def Obligations.StoringInstructionsFrame : Prop :=
  ∀ (a b c : Mode) (i : Instr) (s t : State),
    i = .add a b c ∨ i = .mul a b c ∨ i = .lt a b c ∨ i = .eq a b c → exec i s = .next t →
    t.rb = s.rb ∧ t.dir = s.dir ∧ t.params = s.params ∧ (t.st = s.st ∨ t.st = .faulted) ∧
      (∀ d, destAddr c 3 s = .ok d →
        (∀ x, x ≠ d → t.mem.read x = s.mem.read x) ∧ (t.len = s.len ∨ t.len = max s.len (d + 1))) ∧
      (∀ r, destAddr c 3 s = .error r → t.mem = s.mem ∧ t.len = s.len)

/-- The frame of IN, OUT, JT, JF, ARB and HLT, which store nothing in their engine step: Memory, its length, `dir` and
the parameters are unchanged, `rb` too but for ARB, `ip` too for IN, OUT and HLT. -/
def Obligations.NonStoringInstructionsFrame : Prop :=
  ∀ (a b c : Mode) (s t : State),
    (∀ i, i = .inp a b c ∨ i = .out a b c ∨ i = .hlt a b c → exec i s = .next t →
      t.mem = s.mem ∧ t.len = s.len ∧ t.dir = s.dir ∧ t.params = s.params ∧ t.rb = s.rb ∧ t.ip = s.ip) ∧
    (∀ i, i = .jt a b c ∨ i = .jf a b c → exec i s = .next t →
      t.mem = s.mem ∧ t.len = s.len ∧ t.dir = s.dir ∧ t.params = s.params ∧ t.rb = s.rb ∧
        (t.st = s.st ∨ t.st = .faulted)) ∧
    (exec (.arb a b c) s = .next t →
      t.mem = s.mem ∧ t.len = s.len ∧ t.dir = s.dir ∧ t.params = s.params ∧ (t.st = s.st ∨ t.st = .faulted))

/-- 60_exceptions.md R171 (derived there; the spec's conflict C7 and decision D13): a faulting step changes `st` alone
when the decode failed, and `st` and `dir` alone when it succeeded; a fault in a completion, and the fault of a SUPPLY
out of turn, change `st` alone. -/
def Obligations.FaultsArePrecise : Prop :=
  (∀ s t : State, s.st = .running → step s = .next t → t.st = .faulted →
    (∃ r, decode (s.mem.read s.ip) = .error r ∧ t = { s with st := .faulted }) ∨
      ∃ i, decode (s.mem.read s.ip) = .ok i ∧ t = { s with st := .faulted, dir := latchOf i }) ∧
  (∀ (v : Word) (s : State), (resumeInput v s).st = .faulted → resumeInput v s = { s with st := .faulted }) ∧
  (∀ s : State, (resumeOutput s).1.st = .faulted →
    resumeOutput s = ({ s with st := .faulted }, .noValue)) ∧
  (∀ s : State, (supplyOutOfTurn s).st = .faulted → supplyOutOfTurn s = { s with st := .faulted })

/-- 10_state.md R24. Written: an engine step changes the relative base only if it runs ARB; a host command changes none
but through its engine steps (with no engine step it keeps `rb`, and one engine step more changes `rb` only if that
step runs ARB), so a command that does not run the engine keeps it whatever its budget; LOAD sets it to 0, and
DUPLICATE copies it. Read: it is added, whatever its sign, to a Relative literal (an address within the address space
is no fault), and nothing else depends on it but ARB, which adds to it (45_base_halt.md R160): operands and destinations
in other modes, every instruction, step and completion with no used slot in Relative mode, and every command that does
not run the engine do the same on any other base, and keep that base. -/
def Obligations.OnlyArbChangesRelativeBase : Prop :=
  (∀ s t : State, step s = .next t → t.rb ≠ s.rb →
    s.st = .running ∧ ∃ a b c, decode (s.mem.read s.ip) = .ok (.arb a b c)) ∧
  (∀ (v : Word) (s : State), (resumeInput v s).rb = s.rb ∧ (resumeOutput s).1.rb = s.rb ∧
    (supplyOutOfTurn s).rb = s.rb) ∧
  (∀ (a : Nat) (v : Word) (s t : State), poke a v s = .next t → t.rb = s.rb) ∧
  (∀ (c : Command) (s t : State) (r : Reply), perform 0 c s = .next (t, r) → t.rb = s.rb) ∧
  (∀ (n : Nat) (c : Command) (s u t : State) (q r : Reply), perform n c s = .next (u, q) →
    perform (n + 1) c s = .next (t, r) → t.rb ≠ u.rb →
      u.st = .running ∧ ∃ a b d, decode (u.mem.read u.ip) = .ok (.arb a b d)) ∧
  (∀ (n : Nat) (c : Command) (s t : State) (r : Reply), ¬ RunsEngine c s → perform n c s = .next (t, r) →
    t.rb = s.rb) ∧
  (∀ (p : Params) (latch : Dir) (image : List Word) (s : State), load p latch image = .next s → s.rb = 0) ∧
  (∀ (n : Nat) (s u : State) (r : Reply), perform n .duplicate s = .next (u, r) →
    u.rb = s.rb ∧ ∃ copy, r = .machine copy ∧ copy.rb = s.rb) ∧
  (∀ (L : Word) (s : State) (a : Nat), (a : Int) = L.toInt + s.rb.toInt → a ≤ addrMax → eaRel L s = .ok a) ∧
  (∀ (k : Nat) (s : State) (w : Word),
    readParam .position k { s with rb := w } = readParam .position k s ∧
    readParam .immediate k { s with rb := w } = readParam .immediate k s ∧
    destAddr .position k { s with rb := w } = destAddr .position k s ∧
    destAddr .immediate k { s with rb := w } = destAddr .immediate k s) ∧
  (∀ (i : Instr) (s : State) (w : Word), i.opcode ≠ .arb → NoRelativeSlot i →
    ∃ t, exec i s = .next t ∧ exec i { s with rb := w } = .next { t with rb := w }) ∧
  (∀ (s : State) (w : Word),
    (∀ i, decode (s.mem.read s.ip) = .ok i → i.opcode ≠ .arb ∧ NoRelativeSlot i) →
    ∃ t, step s = .next t ∧ step { s with rb := w } = .next { t with rb := w }) ∧
  (∀ (v : Word) (s : State) (w : Word), s.dir.mode1 ≠ .relative →
    resumeInput v { s with rb := w } = { resumeInput v s with rb := w } ∧
    resumeOutput { s with rb := w } = ({ (resumeOutput s).1 with rb := w }, (resumeOutput s).2)) ∧
  (∀ (n : Nat) (c : Command) (s t : State) (r : Reply) (w : Word), ¬ RunsEngine c s → c ≠ .duplicate →
    perform n c s = .next (t, r) → perform n c { s with rb := w } = .next ({ t with rb := w }, r))

/-- 20_memory.md R44, the length: no step and no session of host commands shrinks `len`. -/
def Obligations.LengthOnlyGrows : Prop :=
  (∀ s t : State, step s = .next t → s.len ≤ t.len) ∧
  ∀ (cs : List (Nat × Command)) (s : State), s.len ≤ (session cs s).len

/-- The rows of 40_engine.md R100's table for LOAD, the engine step, the resumes of SUPPLY and CONSUME, PEEK, POKE, STATE,
DUPLICATE, and the terminal states (out-of-turn commands have a statement of their own). -/
def Obligations.ExecStateTransitions : Prop :=
  (∀ (p : Params) (latch : Dir) (image : List Word) (s : State), load p latch image = .next s → s.st = .running) ∧
  (∀ s t : State, s.st = .running → step s = .next t →
    t.st = .faulted ∨
      ∃ i, decode (s.mem.read s.ip) = .ok i ∧
        (i.opcode = .inp → t.st = .awaitingInput) ∧ (i.opcode = .out → t.st = .hasOutput) ∧
        (i.opcode = .hlt → t.st = .halted) ∧
        (i.opcode ≠ .inp → i.opcode ≠ .out → i.opcode ≠ .hlt → t.st = .running)) ∧
  (∀ (v : Word) (s : State),
    ((resumeInput v s).st = .running ↔ ∃ t, completeInput v s = .ok t) ∧
    ((resumeInput v s).st = .faulted ↔ ∃ r, completeInput v s = .error r)) ∧
  (∀ s : State,
    ((resumeOutput s).1.st = .running ↔ ∃ t, completeOutput s = .ok t) ∧
    ((resumeOutput s).1.st = .faulted ↔ ∃ r, completeOutput s = .error r)) ∧
  (∀ (n a : Nat) (v : Word) (c : Command) (s t : State) (r : Reply),
    c = .peek a ∨ c = .poke a v ∨ c = .state ∨ c = .duplicate → perform n c s = .next (t, r) → t.st = s.st) ∧
  (∀ (n : Nat) (c : Command) (s t : State) (r : Reply), s.Terminal → perform n c s = .next (t, r) → t.st = s.st)

/-- 40_engine.md R99 with 10_state.md R25 (POKE in a terminal state is the spec's decision D15, log entry 17): no
session of host commands moves a terminal machine: `st`, `ip`, `rb` and `dir` stay, and without a POKE everything
does. -/
def Obligations.TerminalStatesAreFinal : Prop :=
  ∀ (cs : List (Nat × Command)) (s : State), s.Terminal →
    (session cs s).st = s.st ∧ (session cs s).ip = s.ip ∧ (session cs s).rb = s.rb ∧ (session cs s).dir = s.dir ∧
      ((∀ n a v, (n, Command.poke a v) ∉ cs) → session cs s = s)

/-! ## The invariant -/

/-- The invariant of the model (the clauses cite 10_state.md R21, R32, 20_memory.md R43, 40_engine.md R108, 00_scope.md
R9) is kept by every step from every state that meets it. -/
def Obligations.StepKeepsInvariant : Prop :=
  ∀ s t : State, s.Inv → step s = .next t → t.Inv

/-- The invariant is kept by every host command, whatever its step budget, and by every session of commands. -/
def Obligations.CommandsKeepInvariant : Prop :=
  (∀ (n : Nat) (c : Command) (s t : State) (r : Reply), s.Inv → perform n c s = .next (t, r) → t.Inv) ∧
  ∀ (cs : List (Nat × Command)) (s : State), s.Inv → (session cs s).Inv

/-- Every machine LOAD makes meets the invariant, whatever the image and the unspecified latch. -/
def Obligations.LoadedMachineMeetsInvariant : Prop :=
  ∀ (p : Params) (latch : Dir) (image : List Word) (s : State), p.wf → load p latch image = .next s → s.Inv

/-- The state after reset meets the invariant. That reset is LOAD of the empty image, and the parameters it has
(`MEM_LIMIT = 2^63`, on which the clauses about the length and the parameters rest), are the model's choices, log
entries 9 and 3; 70_reset_and_hazards.md R190 and R191 give the other values. -/
def Obligations.ResetMeetsInvariant : Prop := State.reset.Inv

/-! ## Reset and LOAD -/

/-- 70_reset_and_hazards.md R191: the value of every piece of state after LOAD of an image that fits; `dir`, which the
rule leaves unspecified, is any value. -/
def Obligations.LoadSetsEveryState : Prop :=
  ∀ (p : Params) (latch : Dir) (image : List Word), image.length ≤ p.memLimit →
    ∃ s, load p latch image = .next s ∧
      (∀ (a : Nat) (h : a < image.length), s.mem.read a = image[a]) ∧
      (∀ a : Nat, image.length ≤ a → s.mem.read a = 0) ∧
      s.len = image.length ∧ s.ip = 0 ∧ s.rb = 0 ∧ s.st = .running

/-- 10_state.md R34 for the empty image (that reset is LOAD of the empty image is the model's choice, log entry 9; its
latch and parameters, log entries 3 and 4, are not stated). -/
def Obligations.ResetHoldsSpecValues : Prop :=
  (∀ a : Nat, State.reset.mem.read a = 0) ∧ State.reset.len = 0 ∧ State.reset.ip = 0 ∧ State.reset.rb = 0 ∧
    State.reset.st = .running ∧ load State.reset.params State.reset.dir [] = .next State.reset

/-- 30_encoding.md R82 with 70_reset_and_hazards.md R190 (D19, D24): a machine loaded with an assembled instruction
executes that instruction in its first step, and its parameter fetches give the literals it was assembled with. -/
def Obligations.LoadedInstructionRunsFirst : Prop :=
  ∀ (i : Instr) (l1 l2 l3 : Word) (rest : List Word) (p : Params) (latch : Dir),
    (assemble i l1 l2 l3 ++ rest).length ≤ p.memLimit →
    ∃ s, load p latch (assemble i l1 l2 l3 ++ rest) = .next s ∧ step s = exec i { s with dir := latchOf i } ∧
      (1 ≤ i.opcode.paramCount → fetchParam 1 s = .ok l1) ∧ (2 ≤ i.opcode.paramCount → fetchParam 2 s = .ok l2) ∧
      (3 ≤ i.opcode.paramCount → fetchParam 3 s = .ok l3)

/-- The model's own interface (log entries 9 and 12): a table word placed where the step fetches is the instruction the
next step runs, as the decoder reads it. -/
def Obligations.PlacedTableWordRuns : Prop :=
  ∀ (s : State) (nbits w : Nat) (i : Instr), s.mem.wf → s.ip ≤ addrMax → decodeTableWord nbits w = some i →
    step (s.withFetchWord nbits w) = exec i { s.withFetchWord nbits w with dir := latchOf i }

/-! ## Host commands -/

/-- 40_engine.md R92, with the model's step budget (log entry 7): RUN outside Running changes nothing; in Running it takes
one step and goes on from there, and has not returned while the machine is Running. -/
def Obligations.RunRepeatsSteps : Prop :=
  ∀ s : State,
    (s.st ≠ .running → ∀ n, perform n .run s = .next (s, .done)) ∧
    (s.st = .running → perform 0 .run s = .next (s, .notReturned) ∧
      ∀ n t, step s = .next t → perform (n + 1) .run s = perform n .run t)

/-- A run of the loop that has returned is the same under every larger step budget: the budget of log entry 7 decides
whether a command has returned, never what it does. -/
def Obligations.RunBudgetDoesNotMatter : Prop :=
  ∀ (n m : Nat) (s t : State), n ≤ m → runLoop n s = .next t → t.st ≠ .running → runLoop m s = .next t

/-- 40_engine.md R94 and 42_io.md R131 (the spec's decisions D9, D10, D12): SUPPLY in AwaitingInput stores the value where
the latched mode and the literal and base of that moment say, advances by 2, sets Running and runs; if the write or
the advance faults, the value is lost, only `st` changes, and SUPPLY returns. -/
def Obligations.SupplyCompletesPendingInput : Prop :=
  ∀ (n : Nat) (v : Word) (s : State), s.st = .awaitingInput →
    (∀ d, InputReady s d →
      perform n (.supply v) s =
        runThen n .done
          { s with mem := s.mem.write d v, len := max s.len (d + 1), ip := s.ip + 2, st := .running }) ∧
    ((¬ ∃ d, InputReady s d) → perform n (.supply v) s = .next ({ s with st := .faulted }, .done))

/-- 40_engine.md R95 and 42_io.md R133 (the spec's decisions D9 to D11): CONSUME in HasOutput reads slot 1 with the latched
mode, advances by 2, sets Running, runs, and gives the value read before the run; if the read or the advance faults it
gives no value and only `st` changes. -/
def Obligations.ConsumeDeliversPendingOutput : Prop :=
  ∀ (n : Nat) (s : State), s.st = .hasOutput →
    (∀ x, OutputReady s x →
      perform n .consume s = runThen n (.word x) { s with ip := s.ip + 2, st := .running }) ∧
    ((¬ ∃ x, OutputReady s x) → perform n .consume s = .next ({ s with st := .faulted }, .noValue))

/-- 40_engine.md R98 and R99 (derived there) with the parameter of D18: RUN, CONSUME and SUPPLY out of turn change nothing,
except SUPPLY in Running or HasOutput when `MISORDER_SUPPLY = fault`, which faults. -/
def Obligations.OutOfTurnCommandsChangeNothing : Prop :=
  ∀ (n : Nat) (v : Word) (s : State),
    (s.st ≠ .running → perform n .run s = .next (s, .done)) ∧
    (s.st ≠ .hasOutput → perform n .consume s = .next (s, .noValue)) ∧
    (s.st ≠ .awaitingInput → s.params.misorderSupply = .noop → perform n (.supply v) s = .next (s, .done)) ∧
    (s.Terminal → perform n (.supply v) s = .next (s, .done)) ∧
    (s.st = .running ∨ s.st = .hasOutput → s.params.misorderSupply = .fault →
      perform n (.supply v) s = .next ({ s with st := .faulted }, .done))

/-- 20_memory.md R45 (the spec's decision D16): PEEK gives the word at an address, 0 above `ADDR_MAX`, and changes nothing,
in every execution state. -/
def Obligations.PeekReadsOneWord : Prop :=
  ∀ (n a : Nat) (s : State),
    (a ≤ addrMax → perform n (.peek a) s = .next (s, .word (s.mem.read a))) ∧
    (addrMax < a → perform n (.peek a) s = .next (s, .word 0))

/-- 20_memory.md R46 (the spec's decisions D15, D16): in every execution state, POKE below `MEM_LIMIT` sets that word and
no other, extends the length, and changes nothing else; at or past it the command is refused. -/
def Obligations.PokeWritesOneWord : Prop :=
  ∀ (n a : Nat) (v : Word) (s : State), s.mem.wf →
    (a < s.params.memLimit →
      ∃ t, perform n (.poke a v) s = .next (t, .done) ∧ t.mem.read a = v ∧
        (∀ b, b ≠ a → t.mem.read b = s.mem.read b) ∧ t.mem.wf ∧ t.len = max s.len (a + 1) ∧ t.ip = s.ip ∧
        t.rb = s.rb ∧ t.st = s.st ∧ t.dir = s.dir ∧ t.params = s.params) ∧
    (s.params.memLimit ≤ a → perform n (.poke a v) s = .refused .pokeBeyondLimit)

/-- 70_reset_and_hazards.md R190 (the spec's decision D4): a larger image is refused. -/
def Obligations.OversizedImageIsRefused : Prop :=
  ∀ (p : Params) (latch : Dir) (image : List Word), p.memLimit < image.length →
    load p latch image = .refused .imageBeyondLimit

/-- 40_engine.md R96: STATE returns `st`, changes nothing and runs nothing, in every state. -/
def Obligations.StateReportsExecState : Prop :=
  ∀ (n : Nat) (s : State), perform n .state s = .next (s, .execState s.st)

/-- 10_state.md R26 (the spec's decision D17): the 3-bit codes; 5, 6 and 7 are never produced. -/
def Obligations.ExecStateCodes : Prop :=
  execStateCode .running = 0 ∧ execStateCode .awaitingInput = 1 ∧ execStateCode .hasOutput = 2 ∧
    execStateCode .halted = 3 ∧ execStateCode .faulted = 4 ∧ ∀ e, (execStateCode e).toNat < 5

/-- 40_engine.md R97 and 10_state.md R35 (the spec's decision D22): DUPLICATE of machine `i`, in any state, adds a machine
with the whole state of the original and leaves every machine as it was. Whatever session of host commands follows, to
any machines in any order, the original and the copy are each what the commands given to that machine alone make of
the state that was copied: commands to one of them, or to any other machine, do not change the other. (That the copy
stands at the end of the list of machines, at place `w.machines.length`, is the model's choice, log entry 11.) -/
def Obligations.DuplicateIsIndependentCopy : Prop :=
  ∀ (n i : Nat) (w : World) (s : State), w.machines[i]? = some s →
    ∃ w', World.command n (.on i .duplicate) w = .next (w', .machine s) ∧ w'.machines = w.machines ++ [s] ∧
      ∀ cs : List (Nat × HostCommand),
        ((∀ x ∈ cs, x.2.target ≠ some w.machines.length) →
          (w'.session cs).machines[w.machines.length]? = some s) ∧
        ((∀ x ∈ cs, x.2.target ≠ some i) → (w'.session cs).machines[i]? = some s) ∧
        (w'.session cs).machines[w.machines.length]? = some (session (commandsTo w.machines.length cs) s) ∧
        (w'.session cs).machines[i]? = some (session (commandsTo i cs) s)

/-- 40_engine.md R102: a command to one machine never changes another, and a LOAD changes none. -/
def Obligations.CommandsTouchOneMachine : Prop :=
  (∀ (n i j : Nat) (c : Command) (w w' : World) (r : Reply), i ≠ j → j < w.machines.length →
    World.command n (.on i c) w = .next (w', r) → w'.machines[j]? = w.machines[j]?) ∧
  (∀ (n j : Nat) (p : Params) (latch : Dir) (image : List Word) (w w' : World) (r : Reply), j < w.machines.length →
    World.command n (.load p latch image) w = .next (w', r) → w'.machines[j]? = w.machines[j]?)

/-! ## Writes that are seen -/

/-- 20_memory.md R57 (derived there): fetch is coherent with every write. An ADD that stores its sum over the next
instruction word is followed by the instruction that sum decodes to. -/
def Obligations.NextFetchSeesStoredWord : Prop :=
  ∀ (a b c : Mode) (x y r : Word) (j : Instr) (s : State), s.mem.wf → s.st = .running →
    decode (s.mem.read s.ip) = .ok (.add a b c) → ThreeParamReady a b c s x y (s.ip + 4) →
    r.toInt = x.toInt + y.toInt → decode r = .ok j →
    ∃ t, step s = .next t ∧ t.mem.read (s.ip + 4) = r ∧ step t = exec j { t with dir := latchOf j }

/-- 20_memory.md R54 and 42_io.md R131 (the spec's decision D10, log entry 16): a POKE of the literal of a suspended
Position-mode IN moves the destination of the value supplied afterwards. -/
def Obligations.PokedLiteralMovesPendingInput : Prop :=
  ∀ (L v : Word) (s : State), s.mem.wf → s.st = .awaitingInput → s.dir.mode1 = .position → s.ip + 2 ≤ addrMax →
    s.ip + 1 < s.params.memLimit → 0 ≤ L.toInt → L.toNat < s.params.memLimit →
    ∃ t, poke (s.ip + 1) L s = .next t ∧ (resumeInput v t).mem.read L.toNat = v ∧
      (resumeInput v t).ip = s.ip + 2 ∧ (resumeInput v t).st = .running ∧
      ∀ x, x ≠ L.toNat → x ≠ s.ip + 1 → (resumeInput v t).mem.read x = s.mem.read x

/-- 10_state.md R27 and 42_io.md R131 (the spec's decision D9, log entry 16): a POKE of the instruction word of a suspended
IN does not change its pending write: mode, destination and advance are those of the latched decode. -/
def Obligations.PokedOpcodeKeepsPendingInput : Prop :=
  ∀ (w v : Word) (d : Nat) (s t : State), s.st = .awaitingInput → InputReady s d → poke s.ip w s = .next t →
    resumeInput v t =
      { s with mem := (s.mem.write s.ip w).write d v, len := max (max s.len (s.ip + 1)) (d + 1), ip := s.ip + 2,
               st := .running }
end

