-- ==== Sys2Proof/Laws/State.lean ====
section
/-! SUPPORT. One lemma per field of State per update, so that no later proof unfolds an update. -/

namespace Sys2Proof.Machine

@[simp] theorem State.setIp_mem (s : State) (a : Nat) : (s.setIp a).mem = s.mem := rfl
@[simp] theorem State.setIp_len (s : State) (a : Nat) : (s.setIp a).len = s.len := rfl
@[simp] theorem State.setIp_ip (s : State) (a : Nat) : (s.setIp a).ip = a := rfl
@[simp] theorem State.setIp_rb (s : State) (a : Nat) : (s.setIp a).rb = s.rb := rfl
@[simp] theorem State.setIp_st (s : State) (a : Nat) : (s.setIp a).st = s.st := rfl
@[simp] theorem State.setIp_dir (s : State) (a : Nat) : (s.setIp a).dir = s.dir := rfl
@[simp] theorem State.setIp_params (s : State) (a : Nat) : (s.setIp a).params = s.params := rfl

@[simp] theorem State.setRb_mem (s : State) (w : Word) : (s.setRb w).mem = s.mem := rfl
@[simp] theorem State.setRb_len (s : State) (w : Word) : (s.setRb w).len = s.len := rfl
@[simp] theorem State.setRb_ip (s : State) (w : Word) : (s.setRb w).ip = s.ip := rfl
@[simp] theorem State.setRb_rb (s : State) (w : Word) : (s.setRb w).rb = w := rfl
@[simp] theorem State.setRb_st (s : State) (w : Word) : (s.setRb w).st = s.st := rfl
@[simp] theorem State.setRb_dir (s : State) (w : Word) : (s.setRb w).dir = s.dir := rfl
@[simp] theorem State.setRb_params (s : State) (w : Word) : (s.setRb w).params = s.params := rfl

@[simp] theorem State.setSt_mem (s : State) (e : ExecState) : (s.setSt e).mem = s.mem := rfl
@[simp] theorem State.setSt_len (s : State) (e : ExecState) : (s.setSt e).len = s.len := rfl
@[simp] theorem State.setSt_ip (s : State) (e : ExecState) : (s.setSt e).ip = s.ip := rfl
@[simp] theorem State.setSt_rb (s : State) (e : ExecState) : (s.setSt e).rb = s.rb := rfl
@[simp] theorem State.setSt_st (s : State) (e : ExecState) : (s.setSt e).st = e := rfl
@[simp] theorem State.setSt_dir (s : State) (e : ExecState) : (s.setSt e).dir = s.dir := rfl
@[simp] theorem State.setSt_params (s : State) (e : ExecState) : (s.setSt e).params = s.params := rfl

@[simp] theorem State.setDir_mem (s : State) (d : Dir) : (s.setDir d).mem = s.mem := rfl
@[simp] theorem State.setDir_len (s : State) (d : Dir) : (s.setDir d).len = s.len := rfl
@[simp] theorem State.setDir_ip (s : State) (d : Dir) : (s.setDir d).ip = s.ip := rfl
@[simp] theorem State.setDir_rb (s : State) (d : Dir) : (s.setDir d).rb = s.rb := rfl
@[simp] theorem State.setDir_st (s : State) (d : Dir) : (s.setDir d).st = s.st := rfl
@[simp] theorem State.setDir_dir (s : State) (d : Dir) : (s.setDir d).dir = d := rfl
@[simp] theorem State.setDir_params (s : State) (d : Dir) : (s.setDir d).params = s.params := rfl

@[simp] theorem State.store_mem (s : State) (a : Nat) (v : Word) : (s.store a v).mem = s.mem.write a v := rfl
@[simp] theorem State.store_len (s : State) (a : Nat) (v : Word) : (s.store a v).len = max s.len (a + 1) := rfl
@[simp] theorem State.store_ip (s : State) (a : Nat) (v : Word) : (s.store a v).ip = s.ip := rfl
@[simp] theorem State.store_rb (s : State) (a : Nat) (v : Word) : (s.store a v).rb = s.rb := rfl
@[simp] theorem State.store_st (s : State) (a : Nat) (v : Word) : (s.store a v).st = s.st := rfl
@[simp] theorem State.store_dir (s : State) (a : Nat) (v : Word) : (s.store a v).dir = s.dir := rfl
@[simp] theorem State.store_params (s : State) (a : Nat) (v : Word) : (s.store a v).params = s.params := rfl

@[simp] theorem raiseFault_mem (r : Fault) (s : State) : (raiseFault r s).mem = s.mem := rfl
@[simp] theorem raiseFault_len (r : Fault) (s : State) : (raiseFault r s).len = s.len := rfl
@[simp] theorem raiseFault_ip (r : Fault) (s : State) : (raiseFault r s).ip = s.ip := rfl
@[simp] theorem raiseFault_rb (r : Fault) (s : State) : (raiseFault r s).rb = s.rb := rfl
@[simp] theorem raiseFault_st (r : Fault) (s : State) : (raiseFault r s).st = .faulted := rfl
@[simp] theorem raiseFault_dir (r : Fault) (s : State) : (raiseFault r s).dir = s.dir := rfl
@[simp] theorem raiseFault_params (r : Fault) (s : State) : (raiseFault r s).params = s.params := rfl

@[simp] theorem latch_mem (i : Instr) (s : State) : (latch i s).mem = s.mem := rfl
@[simp] theorem latch_len (i : Instr) (s : State) : (latch i s).len = s.len := rfl
@[simp] theorem latch_ip (i : Instr) (s : State) : (latch i s).ip = s.ip := rfl
@[simp] theorem latch_rb (i : Instr) (s : State) : (latch i s).rb = s.rb := rfl
@[simp] theorem latch_st (i : Instr) (s : State) : (latch i s).st = s.st := rfl
@[simp] theorem latch_dir (i : Instr) (s : State) : (latch i s).dir = dirOf i := rfl
@[simp] theorem latch_params (i : Instr) (s : State) : (latch i s).params = s.params := rfl

end Sys2Proof.Machine
end

