-- ==== Sys2Proof/Laws/Memory.lean ====
section
/-! SUPPORT. The laws of Memory: a read after a write, and that every operation keeps the canonical form. -/

namespace Sys2Proof.Machine

/-- The canonical form of a cell list. -/
abbrev CellsWf (l : List (Nat × Word)) : Prop :=
  l.Pairwise (fun x y => x.1 < y.1) ∧ ∀ x ∈ l, x.2 ≠ 0

theorem CellsWf.tail {x : Nat × Word} {l : List (Nat × Word)} (h : CellsWf (x :: l)) : CellsWf l :=
  ⟨(List.pairwise_cons.1 h.1).2, fun y hy => h.2 y (List.mem_cons_of_mem _ hy)⟩

theorem CellsWf.head_lt {x y : Nat × Word} {l : List (Nat × Word)} (h : CellsWf (x :: l)) (hy : y ∈ l) : x.1 < y.1 :=
  (List.pairwise_cons.1 h.1).1 y hy

theorem lookup_eq_zero {l : List (Nat × Word)} {a : Nat} (h : ∀ x ∈ l, x.1 ≠ a) : Memory.lookup l a = 0 := by
  induction l with
  | nil => rfl
  | cons x l ih =>
    have hx : a ≠ x.1 := fun e => h x (by simp) e.symm
    simp only [Memory.lookup, if_neg hx]
    exact ih fun y hy => h y (by simp [hy])

/-- A cell that `put` lists is the one put or was listed before. -/
theorem mem_put {l : List (Nat × Word)} {a : Nat} {v : Word} {x : Nat × Word} (h : x ∈ Memory.put l a v) :
    (x = (a, v) ∧ v ≠ 0) ∨ x ∈ l := by
  induction l with
  | nil =>
    simp only [Memory.put] at h
    split at h <;> simp_all
  | cons y l ih =>
    simp only [Memory.put] at h
    split at h
    · split at h
      · exact .inr h
      · rcases List.mem_cons.1 h with h | h
        · exact .inl ⟨h, ‹_›⟩
        · exact .inr h
    · split at h
      · split at h
        · exact .inr (List.mem_cons_of_mem _ h)
        · rcases List.mem_cons.1 h with h | h
          · exact .inl ⟨h, ‹_›⟩
          · exact .inr (List.mem_cons_of_mem _ h)
      · rcases List.mem_cons.1 h with h | h
        · exact .inr (by simp [h])
        · rcases ih h with h | h
          · exact .inl h
          · exact .inr (List.mem_cons_of_mem _ h)

theorem put_wf {l : List (Nat × Word)} (hl : CellsWf l) (a : Nat) (v : Word) : CellsWf (Memory.put l a v) := by
  induction l with
  | nil =>
    simp only [Memory.put]
    split
    · exact hl
    · simp_all [CellsWf]
  | cons y l ih =>
    have ht := hl.tail
    simp only [Memory.put]
    split
    · split
      · exact hl
      · refine ⟨List.pairwise_cons.2 ⟨fun x hx => ?_, hl.1⟩, fun x hx => ?_⟩
        · rcases List.mem_cons.1 hx with h | h
          · subst h; assumption
          · have := hl.head_lt h; simp only at *; omega
        · rcases List.mem_cons.1 hx with h | h
          · subst h; assumption
          · exact hl.2 x h
    · split
      · split
        · exact ht
        · refine ⟨List.pairwise_cons.2 ⟨fun x hx => ?_, ht.1⟩, fun x hx => ?_⟩
          · have := hl.head_lt hx; simp only at *; omega
          · rcases List.mem_cons.1 hx with h | h
            · subst h; assumption
            · exact ht.2 x h
      · have hp := ih ht
        refine ⟨List.pairwise_cons.2 ⟨fun x hx => ?_, hp.1⟩, fun x hx => ?_⟩
        · rcases mem_put hx with h | h
          · simp only [h.1] at *; omega
          · exact hl.head_lt h
        · rcases List.mem_cons.1 hx with h | h
          · subst h; exact hl.2 _ (by simp)
          · exact hp.2 x h

theorem lookup_put_same {l : List (Nat × Word)} (hl : CellsWf l) (a : Nat) (v : Word) :
    Memory.lookup (Memory.put l a v) a = v := by
  induction l with
  | nil =>
    simp only [Memory.put]
    split <;> simp_all [Memory.lookup]
  | cons y l ih =>
    simp only [Memory.put]
    split
    · split
      · subst_vars
        refine lookup_eq_zero fun x hx => ?_
        rcases List.mem_cons.1 hx with h | h
        · subst h; omega
        · have := hl.head_lt h; omega
      · simp [Memory.lookup]
    · split
      · split
        · subst_vars
          exact lookup_eq_zero fun x hx => by have := hl.head_lt hx; omega
        · simp [Memory.lookup]
      · simp only [Memory.lookup, if_neg ‹¬ a = y.1›]
        exact ih hl.tail

theorem lookup_put_ne {l : List (Nat × Word)} {a b : Nat} (hab : b ≠ a) (v : Word) :
    Memory.lookup (Memory.put l a v) b = Memory.lookup l b := by
  induction l with
  | nil =>
    simp only [Memory.put]
    split <;> simp [Memory.lookup, hab]
  | cons y l ih =>
    simp only [Memory.put]
    split
    · split <;> simp [Memory.lookup, hab]
    · split
      · subst_vars
        split <;> simp [Memory.lookup, hab]
      · simp only [Memory.lookup]
        split
        · rfl
        · exact ih

theorem Memory.read_write_same {m : Memory} (hm : m.wf) (a : Nat) (v : Word) : (m.write a v).read a = v :=
  lookup_put_same hm a v

theorem Memory.read_write_ne (m : Memory) {a b : Nat} (h : b ≠ a) (v : Word) : (m.write a v).read b = m.read b :=
  lookup_put_ne h v

theorem Memory.write_wf {m : Memory} (hm : m.wf) (a : Nat) (v : Word) : (m.write a v).wf :=
  put_wf hm a v

theorem Memory.mem_write {m : Memory} {a : Nat} {v : Word} {x : Nat × Word} (h : x ∈ (m.write a v).cells) :
    (x = (a, v) ∧ v ≠ 0) ∨ x ∈ m.cells :=
  mem_put h

theorem reset_mem_wf : State.reset.mem.wf := by decide

/-- Every cell of a placed image stands in its range and holds no 0. -/
theorem mem_imageCells {a : Nat} {ws : List Word} {x : Nat × Word} (h : x ∈ imageCells a ws) :
    a ≤ x.1 ∧ x.1 < a + ws.length ∧ x.2 ≠ 0 := by
  induction ws generalizing a with
  | nil => simp [imageCells] at h
  | cons w ws ih =>
    simp only [imageCells] at h
    split at h
    · obtain ⟨h1, h2, h3⟩ := ih h
      exact ⟨by omega, by simp only [List.length_cons]; omega, h3⟩
    · rcases List.mem_cons.1 h with h | h
      · subst h; simp_all
      · obtain ⟨h1, h2, h3⟩ := ih h
        exact ⟨by omega, by simp only [List.length_cons]; omega, h3⟩

theorem imageCells_wf (a : Nat) (ws : List Word) : CellsWf (imageCells a ws) := by
  induction ws generalizing a with
  | nil => simp [imageCells, CellsWf]
  | cons w ws ih =>
    simp only [imageCells]
    split
    · exact ih _
    · refine ⟨List.pairwise_cons.2 ⟨fun x hx => ?_, (ih _).1⟩, fun x hx => ?_⟩
      · have := (mem_imageCells hx).1; simp only; omega
      · rcases List.mem_cons.1 hx with h | h
        · subst h; assumption
        · exact (ih _).2 x h

theorem placeWords_mem_wf {s : State} (hs : s.mem.wf) (a : Nat) (ws : List Word) : (placeWords a ws s).mem.wf := by
  induction ws generalizing a s with
  | nil => exact hs
  | cons w ws ih =>
    simp only [placeWords]
    refine ih ?_ _
    split
    · exact Memory.write_wf hs a w
    · exact hs

end Sys2Proof.Machine
end

