-- ==== Sys2Proof/Laws/Effects.lean ====
section
/-! SUPPORT. For each shared operation, what it can do, said once: when it answers, with what, and otherwise that it
faults. Later proofs cite these and do not unfold the operations. -/

namespace Sys2Proof.Machine

open Sys2Proof.Config

/-- A sequence answers only through the answers of its parts. -/
theorem bind_eq_ok {α β : Type} {x : Except Fault α} {f : α → Except Fault β} {t : β} :
    (x >>= f) = .ok t ↔ ∃ y, x = .ok y ∧ f y = .ok t := by
  cases x <;> simp [bind, Except.bind]

@[simp] theorem ok_bind {α β : Type} (y : α) (f : α → Except Fault β) : ((Except.ok y : Except Fault α) >>= f) = f y :=
  rfl

@[simp] theorem error_bind {α β : Type} (r : Fault) (f : α → Except Fault β) :
    ((Except.error r : Except Fault α) >>= f) = .error r :=
  rfl

/-- An effect that answers nothing is a fault. -/
theorem exists_error_of_not_ok {α : Type} {x : Except Fault α} (h : ∀ t, x ≠ .ok t) : ∃ r, x = .error r := by
  cases x with
  | ok t => exact absurd rfl (h t)
  | error r => exact ⟨r, rfl⟩

@[simp] theorem commit_ok (s t : State) : commit s (.ok t) = .next t := rfl

@[simp] theorem commit_error (s : State) (r : Fault) : commit s (.error r) = .next (raiseFault r s) := rfl

theorem commit_cases {s t : State} {e : Except Fault State} (h : commit s e = .next t) :
    e = .ok t ∨ (∃ r, e = .error r ∧ t = raiseFault r s) := by
  cases e with
  | ok u => simp only [commit_ok, Host.Outcome.next.injEq] at h; exact .inl (h ▸ rfl)
  | error r => simp only [commit_error, Host.Outcome.next.injEq] at h; exact .inr ⟨r, rfl, h.symm⟩

theorem commit_next (s : State) (e : Except Fault State) : ∃ t, commit s e = .next t := by
  cases e <;> exact ⟨_, rfl⟩

/-- The word of an integer that fits holds that integer. -/
theorem toInt_ofInt_of_fits {v : Int} (h : Fits v) : (BitVec.ofInt 64 v : Word).toInt = v := by
  obtain ⟨h1, h2⟩ := h
  rw [BitVec.toInt_ofInt]
  unfold Int.bmod
  simp only [wordMin, wordMax] at h1 h2
  norm_num
  split <;> omega

/-- Every word's value fits. -/
theorem fits_toInt (w : Word) : Fits w.toInt := by
  have h1 := BitVec.le_toInt w
  have h2 := BitVec.toInt_lt (x := w)
  simp only [Fits, wordMin, wordMax] at *
  constructor <;> omega

/-- A non-negative word is an address, and its bits read as a number are its value. -/
theorem toNat_of_toInt_nonneg {w : Word} (h : ¬ w.toInt < 0) : (w.toNat : Int) = w.toInt ∧ w.toNat ≤ addrMax := by
  have hw := w.isLt
  rw [BitVec.toInt_eq_toNat_cond] at h ⊢
  simp only [addrMax]
  split at h
  · rw [if_pos ‹_›]; omega
  · omega

theorem narrow_eq_ok {v : Int} {w : Word} : narrow v = .ok w ↔ Fits v ∧ w = BitVec.ofInt 64 v := by
  unfold narrow
  split
  · simp only [Except.ok.injEq, eq_comm (b := w), iff_and_self]; exact fun _ => ‹_›
  · simp only [reduceCtorEq, false_iff, not_and]; exact fun h => absurd h ‹_›

theorem nextIp_eq_ok {n a : Nat} {s : State} : nextIp n s = .ok a ↔ s.ip + n ≤ addrMax ∧ a = s.ip + n := by
  unfold nextIp
  split
  · simp only [reduceCtorEq, false_iff, not_and]; omega
  · simp only [Except.ok.injEq, eq_comm (b := a), iff_and_self]; omega

theorem memWrite_eq_ok {a : Nat} {v : Word} {s t : State} :
    memWrite a v s = .ok t ↔ a < s.params.memLimit ∧ t = s.store a v := by
  unfold memWrite
  split
  · simp only [reduceCtorEq, false_iff, not_and]; omega
  · simp only [Except.ok.injEq, eq_comm (b := t), iff_and_self]; omega

theorem fetchParam_eq_ok {k : Nat} {s : State} {L : Word} :
    fetchParam k s = .ok L ↔ s.ip + k ≤ addrMax ∧ L = s.mem.read (s.ip + k) := by
  unfold fetchParam
  split
  · simp only [reduceCtorEq, false_iff, not_and]; omega
  · simp only [Except.ok.injEq, memRead, eq_comm (b := L), iff_and_self]; omega

theorem eaPos_eq_ok {L : Word} {a : Nat} : eaPos L = .ok a ↔ 0 ≤ L.toInt ∧ a = L.toNat := by
  unfold eaPos
  split
  · simp only [reduceCtorEq, false_iff, not_and]; omega
  · simp only [Except.ok.injEq, eq_comm (b := a), iff_and_self]; omega

theorem eaRel_eq_ok {L : Word} {s : State} {a : Nat} :
    eaRel L s = .ok a ↔ (a : Int) = L.toInt + s.rb.toInt ∧ a ≤ addrMax := by
  unfold eaRel
  split
  · simp only [reduceCtorEq, false_iff, not_and]; omega
  · split
    · simp only [reduceCtorEq, false_iff, not_and]; omega
    · simp only [Except.ok.injEq]; omega

/-- `read(k)` depends on Memory, `ip` and `rb` only. -/
theorem readParam_congr (s t : State) (mode : Mode) (k : Nat) (hm : t.mem = s.mem) (hip : t.ip = s.ip)
    (hrb : t.rb = s.rb) : readParam mode k t = readParam mode k s := by
  cases mode <;> simp [readParam, fetchParam, memRead, eaRel, hm, hip, hrb]

/-- The destination of `write(k, v)` depends on the literal's word, `ip` and `rb` only. -/
theorem destAddr_congr (s t : State) (mode : Mode) (k : Nat) (hL : t.mem.read (s.ip + k) = s.mem.read (s.ip + k))
    (hip : t.ip = s.ip) (hrb : t.rb = s.rb) : destAddr mode k t = destAddr mode k s := by
  cases mode <;> simp [destAddr, fetchParam, memRead, eaRel, hL, hip, hrb]

/-- An operand that is not in Relative mode is the same on every base. -/
theorem readParam_setRb {mode : Mode} (hm : mode ≠ .relative) (k : Nat) (s : State) (w : Word) :
    readParam mode k (s.setRb w) = readParam mode k s := by
  cases mode with
  | position => rfl
  | immediate => rfl
  | relative => exact absurd rfl hm

/-- A destination that is not in Relative mode is the same on every base. -/
theorem destAddr_setRb {mode : Mode} (hm : mode ≠ .relative) (k : Nat) (s : State) (w : Word) :
    destAddr mode k (s.setRb w) = destAddr mode k s := by
  cases mode with
  | position => rfl
  | immediate => rfl
  | relative => exact absurd rfl hm

/-- A write that is not in Relative mode does the same on every base, and keeps it. -/
theorem writeParam_setRb {mode : Mode} (hm : mode ≠ .relative) (k : Nat) (v : Word) (s : State) (w : Word) :
    writeParam mode k v (s.setRb w) = (writeParam mode k v s).map (·.setRb w) := by
  unfold writeParam
  rw [destAddr_setRb hm]
  rcases destAddr mode k s with r | a
  · rfl
  · by_cases h : s.params.memLimit ≤ a <;> simp only [ok_bind, memWrite, State.setRb_params, h, if_true, if_false] <;> rfl

/-- The address a write goes to is an address. -/
theorem destAddr_le {mode : Mode} {k a : Nat} {s : State} (h : destAddr mode k s = .ok a) : a ≤ addrMax := by
  cases mode with
  | immediate => simp [destAddr] at h
  | position =>
    obtain ⟨L, -, h⟩ := bind_eq_ok.1 h
    obtain ⟨h0, rfl⟩ := eaPos_eq_ok.1 h
    exact (toNat_of_toInt_nonneg (by omega)).2
  | relative =>
    obtain ⟨L, -, h⟩ := bind_eq_ok.1 h
    exact (eaRel_eq_ok.1 h).2

theorem writeParam_eq_ok {mode : Mode} {k : Nat} {v : Word} {s t : State} :
    writeParam mode k v s = .ok t ↔
      ∃ a, destAddr mode k s = .ok a ∧ a < s.params.memLimit ∧ t = s.store a v := by
  simp only [writeParam, bind_eq_ok, memWrite_eq_ok]

/-- Everything a three-parameter instruction can do when it does not fault. -/
theorem threeParam_eq_ok {f : Word → Word → Except Fault Word} {a b c : Mode} {s t : State} :
    threeParam f a b c s = .ok t ↔
      ∃ x y r d, readParam a 1 s = .ok x ∧ readParam b 2 s = .ok y ∧ f x y = .ok r ∧ s.ip + 4 ≤ addrMax ∧
        destAddr c 3 s = .ok d ∧ d < s.params.memLimit ∧ t = (s.store d r).setIp (s.ip + 4) := by
  simp only [threeParam, bind_eq_ok, writeParam_eq_ok, nextIp_eq_ok, Except.ok.injEq]
  constructor
  · rintro ⟨x, hx, y, hy, r, hr, _, ⟨hip, rfl⟩, _, ⟨d, hd, hl, rfl⟩, rfl⟩
    exact ⟨x, y, r, d, hx, hy, hr, hip, hd, hl, rfl⟩
  · rintro ⟨x, y, r, d, hx, hy, hr, hip, hd, hl, rfl⟩
    exact ⟨x, hx, y, hy, r, hr, _, ⟨hip, rfl⟩, _, ⟨d, hd, hl, rfl⟩, rfl⟩

/-- Everything a jump can do when it does not fault. -/
theorem jumpWhen_eq_ok {taken : Word → Bool} {a b : Mode} {s t : State} :
    jumpWhen taken a b s = .ok t ↔
      ∃ c, readParam a 1 s = .ok c ∧
        ((taken c = true ∧ ∃ u, readParam b 2 s = .ok u ∧ 0 ≤ u.toInt ∧ t = s.setIp u.toNat) ∨
          (taken c = false ∧ s.ip + 3 ≤ addrMax ∧ t = s.setIp (s.ip + 3))) := by
  simp only [jumpWhen, bind_eq_ok]
  refine exists_congr fun c => and_congr_right fun _ => ?_
  cases taken c
  · simp only [Bool.false_eq_true, if_false, bind_eq_ok, nextIp_eq_ok, Except.ok.injEq, false_and, false_or, true_and]
    constructor
    · rintro ⟨_, ⟨h, rfl⟩, rfl⟩; exact ⟨h, rfl⟩
    · rintro ⟨h, rfl⟩; exact ⟨_, ⟨h, rfl⟩, rfl⟩
  · simp only [if_true, bind_eq_ok, true_and, Bool.true_eq_false, false_and, or_false]
    refine exists_congr fun u => and_congr_right fun _ => ?_
    split
    · simp only [reduceCtorEq, false_iff, not_and]; omega
    · simp only [Except.ok.injEq, eq_comm (b := t), iff_and_self]; omega

/-- Everything ARB can do when it does not fault. -/
theorem adjustBase_eq_ok {a : Mode} {s t : State} :
    adjustBase a s = .ok t ↔
      ∃ d, readParam a 1 s = .ok d ∧ Fits (s.rb.toInt + d.toInt) ∧ s.ip + 2 ≤ addrMax ∧
        t = (s.setRb (BitVec.ofInt 64 (s.rb.toInt + d.toInt))).setIp (s.ip + 2) := by
  simp only [adjustBase, bind_eq_ok, narrow_eq_ok, nextIp_eq_ok, Except.ok.injEq]
  constructor
  · rintro ⟨d, hd, _, ⟨hf, rfl⟩, _, ⟨hip, rfl⟩, rfl⟩; exact ⟨d, hd, hf, hip, rfl⟩
  · rintro ⟨d, hd, hf, hip, rfl⟩; exact ⟨d, hd, _, ⟨hf, rfl⟩, _, ⟨hip, rfl⟩, rfl⟩

/-- Everything the completion of IN can do when it does not fault. -/
theorem completeInput_eq_ok {v : Word} {s t : State} :
    completeInput v s = .ok t ↔
      s.ip + 2 ≤ addrMax ∧ ∃ d, destAddr s.dir.mode1 1 s = .ok d ∧ d < s.params.memLimit ∧
        t = (s.store d v).setIp (s.ip + 2) := by
  simp only [completeInput, bind_eq_ok, nextIp_eq_ok, writeParam_eq_ok, Except.ok.injEq]
  constructor
  · rintro ⟨_, ⟨hip, rfl⟩, _, ⟨d, hd, hl, rfl⟩, rfl⟩; exact ⟨hip, d, hd, hl, rfl⟩
  · rintro ⟨hip, d, hd, hl, rfl⟩; exact ⟨_, ⟨hip, rfl⟩, _, ⟨d, hd, hl, rfl⟩, rfl⟩

/-- Everything the completion of OUT can do when it does not fault. -/
theorem completeOutput_eq_ok {v : Word} {s t : State} :
    completeOutput s = .ok (t, v) ↔
      readParam s.dir.mode1 1 s = .ok v ∧ s.ip + 2 ≤ addrMax ∧ t = s.setIp (s.ip + 2) := by
  simp only [completeOutput, bind_eq_ok, nextIp_eq_ok, Except.ok.injEq, Prod.mk.injEq]
  constructor
  · rintro ⟨_, h, _, ⟨hip, rfl⟩, rfl, rfl⟩; exact ⟨h, hip, rfl⟩
  · rintro ⟨h, hip, rfl⟩; exact ⟨_, h, _, ⟨hip, rfl⟩, rfl, rfl⟩

end Sys2Proof.Machine
end

