-- ==== Sys2Proof/Laws/Step.lean ====
section
/-! SUPPORT. What an instruction and a step can do, said once. -/

namespace Sys2Proof.Machine

open Sys2Proof.Config

/-- The effect of an instruction, before a fault is turned into the Faulted state. -/
def effectOf (i : Instr) (s : State) : Except Fault State :=
  match i with
  | .add a b c => threeParam (fun x y => narrow (x.toInt + y.toInt)) a b c s
  | .mul a b c => threeParam (fun x y => narrow (x.toInt * y.toInt)) a b c s
  | .inp _ _ _ => .ok (s.setSt .awaitingInput)
  | .out _ _ _ => .ok (s.setSt .hasOutput)
  | .jt a b _ => jumpWhen isNonzero a b s
  | .jf a b _ => jumpWhen isZero a b s
  | .lt a b c => threeParam (fun x y => .ok (lessThan x y)) a b c s
  | .eq a b c => threeParam (fun x y => .ok (equals x y)) a b c s
  | .arb a _ _ => adjustBase a s
  | .hlt _ _ _ => .ok (s.setSt .halted)

/-- Every instruction either has its effect or enters Faulted. -/
theorem exec_eq_commit (i : Instr) (s : State) : exec i s = commit s (effectOf i s) := by
  cases i <;> rfl

/-- What an instruction that does not fault changes, by shape: one stored word and `ip`; `ip`; `rb` and `ip`; or
`st` alone. -/
theorem effectOf_cases {i : Instr} {s t : State} (h : effectOf i s = .ok t) :
    (∃ d r, d ≤ addrMax ∧ d < s.params.memLimit ∧ s.ip + 4 ≤ addrMax ∧ t = (s.store d r).setIp (s.ip + 4)) ∨
    (∃ a, a ≤ addrMax ∧ t = s.setIp a) ∨
    (∃ r, s.ip + 2 ≤ addrMax ∧ t = (s.setRb r).setIp (s.ip + 2) ∧ i.opcode = .arb) ∨
    (i.opcode = .inp ∧ t = s.setSt .awaitingInput) ∨
    (i.opcode = .out ∧ t = s.setSt .hasOutput) ∨
    (i.opcode = .hlt ∧ t = s.setSt .halted) := by
  have three : ∀ {f : Word → Word → Except Fault Word} {a b c : Mode}, threeParam f a b c s = .ok t →
      ∃ d r, d ≤ addrMax ∧ d < s.params.memLimit ∧ s.ip + 4 ≤ addrMax ∧ t = (s.store d r).setIp (s.ip + 4) := by
    intro f a b c h
    obtain ⟨x, y, r, d, -, -, -, hip, hd, hl, rfl⟩ := threeParam_eq_ok.1 h
    exact ⟨d, r, destAddr_le hd, hl, hip, rfl⟩
  have jump : ∀ {p : Word → Bool} {a b : Mode}, jumpWhen p a b s = .ok t → ∃ a, a ≤ addrMax ∧ t = s.setIp a := by
    intro p a b h
    obtain ⟨c, -, ⟨-, u, -, hu, rfl⟩ | ⟨-, hip, rfl⟩⟩ := jumpWhen_eq_ok.1 h
    · exact ⟨_, (toNat_of_toInt_nonneg (by omega)).2, rfl⟩
    · exact ⟨_, hip, rfl⟩
  cases i with
  | add a b c => exact .inl (three h)
  | mul a b c => exact .inl (three h)
  | lt a b c => exact .inl (three h)
  | eq a b c => exact .inl (three h)
  | jt a b c => exact .inr (.inl (jump h))
  | jf a b c => exact .inr (.inl (jump h))
  | arb a b c =>
    obtain ⟨d, -, -, hip, rfl⟩ := adjustBase_eq_ok.1 h
    exact .inr (.inr (.inl ⟨_, hip, rfl, rfl⟩))
  | inp a b c => cases h; exact .inr (.inr (.inr (.inl ⟨rfl, rfl⟩)))
  | out a b c => cases h; exact .inr (.inr (.inr (.inr (.inl ⟨rfl, rfl⟩))))
  | hlt a b c => cases h; exact .inr (.inr (.inr (.inr (.inr ⟨rfl, rfl⟩))))

theorem step_running_ok {s : State} {i : Instr} (hs : s.st = .running) (hd : decode (s.mem.read s.ip) = .ok i) :
    step s = exec i (latch i s) := by
  simp [step, hs, fetchDecode, memRead, hd]

theorem step_running_error {s : State} {r : Reject} (hs : s.st = .running)
    (hd : decode (s.mem.read s.ip) = .error r) : step s = .next (raiseFault (faultOfReject r) s) := by
  simp [step, hs, fetchDecode, memRead, hd]

theorem step_not_running {s : State} (hs : s.st ≠ .running) : step s = .next s := by
  rcases s with ⟨m, l, ip, rb, st, dir, p⟩
  cases st <;> first | rfl | exact absurd rfl hs

/-- Everything a step can do: nothing outside Running; a decode fault; a fault of the decoded instruction; or its
effect on the state with the latch written. -/
theorem step_cases {s t : State} (h : step s = .next t) :
    (s.st ≠ .running ∧ t = s) ∨
    (s.st = .running ∧ ∃ r, decode (s.mem.read s.ip) = .error r ∧ t = s.setSt .faulted) ∨
    (s.st = .running ∧ ∃ i, decode (s.mem.read s.ip) = .ok i ∧
      ((∃ r, effectOf i (latch i s) = .error r ∧ t = (latch i s).setSt .faulted) ∨
        effectOf i (latch i s) = .ok t)) := by
  by_cases hs : s.st = .running
  · refine .inr ?_
    rcases hd : decode (s.mem.read s.ip) with r | i
    · rw [step_running_error hs hd] at h
      exact .inl ⟨hs, r, rfl, (Host.Outcome.next.inj h).symm⟩
    · rw [step_running_ok hs hd, exec_eq_commit] at h
      refine .inr ⟨hs, i, rfl, ?_⟩
      rcases commit_cases h with h | ⟨r, hr, ht⟩
      · exact .inr h
      · exact .inl ⟨r, hr, ht⟩
  · rw [step_not_running hs] at h
    exact .inl ⟨hs, (Host.Outcome.next.inj h).symm⟩

end Sys2Proof.Machine
end

