-- ==== Sys2Proof/Laws/Commands.lean ====
section
/-! SUPPORT. What the resumes of SUPPLY and CONSUME can do, the run loop, and the inductions over runs, commands and
sessions, each packaged once: a property kept by steps, resumes, the misorder fault and stores is kept by every
command and every session. -/

namespace Sys2Proof.Machine

open Sys2Proof.Config

theorem resumeInput_ready {v : Word} {s : State} {d : Nat} (h : InputReady s d) :
    resumeInput v s = ((s.store d v).setIp (s.ip + 2)).setSt .running := by
  unfold resumeInput
  rw [completeInput_eq_ok.2 ⟨h.1, d, h.2.1, h.2.2, rfl⟩]

theorem resumeInput_cases (v : Word) (s : State) :
    (∃ d, InputReady s d ∧ resumeInput v s = ((s.store d v).setIp (s.ip + 2)).setSt .running) ∨
      ((¬ ∃ d, InputReady s d) ∧ resumeInput v s = s.setSt .faulted) := by
  rcases hc : completeInput v s with r | t
  · refine .inr ⟨?_, by unfold resumeInput; rw [hc]; rfl⟩
    rintro ⟨d, h⟩
    rw [completeInput_eq_ok.2 ⟨h.1, d, h.2.1, h.2.2, rfl⟩] at hc
    cases hc
  · obtain ⟨h1, d, h2, h3, -⟩ := completeInput_eq_ok.1 hc
    exact .inl ⟨d, ⟨h1, h2, h3⟩, resumeInput_ready ⟨h1, h2, h3⟩⟩

theorem resumeOutput_ready {s : State} {x : Word} (h : OutputReady s x) :
    resumeOutput s = ((s.setIp (s.ip + 2)).setSt .running, .word x) := by
  unfold resumeOutput
  rw [completeOutput_eq_ok.2 ⟨h.1, h.2, rfl⟩]

theorem resumeOutput_cases (s : State) :
    (∃ x, OutputReady s x ∧ resumeOutput s = ((s.setIp (s.ip + 2)).setSt .running, .word x)) ∨
      ((¬ ∃ x, OutputReady s x) ∧ resumeOutput s = (s.setSt .faulted, .noValue)) := by
  rcases hc : completeOutput s with r | ⟨t, x⟩
  · refine .inr ⟨?_, by unfold resumeOutput; rw [hc]; rfl⟩
    rintro ⟨x, h⟩
    rw [completeOutput_eq_ok.2 ⟨h.1, h.2, rfl⟩] at hc
    cases hc
  · obtain ⟨h1, h2, -⟩ := completeOutput_eq_ok.1 hc
    exact .inl ⟨x, ⟨h1, h2⟩, resumeOutput_ready ⟨h1, h2⟩⟩

theorem supplyOutOfTurn_cases (s : State) :
    supplyOutOfTurn s = s ∨
      (s.params.misorderSupply = .fault ∧ (s.st = .running ∨ s.st = .hasOutput) ∧
        supplyOutOfTurn s = s.setSt .faulted) := by
  unfold supplyOutOfTurn
  split
  · exact .inl rfl
  · split
    · exact .inr ⟨‹_›, ‹_›, rfl⟩
    · exact .inl rfl

theorem poke_eq_next {a : Nat} {v : Word} {s t : State} :
    poke a v s = .next t ↔ a < s.params.memLimit ∧ t = s.store a v := by
  unfold poke
  split
  · simp only [Host.Outcome.next.injEq, eq_comm (b := t), iff_and_self]
    exact fun _ => ‹_›
  · simp only [reduceCtorEq, false_iff, not_and]
    exact fun h => absurd h ‹_›

theorem load_eq_next {p : Params} {latch : Dir} {image : List Word} {s : State} :
    load p latch image = .next s ↔
      image.length ≤ p.memLimit ∧
        s = { mem := { cells := imageCells 0 image }, len := image.length, ip := 0, rb := 0, st := .running,
              dir := latch, params := p } := by
  unfold load
  split
  · simp only [Host.Outcome.next.injEq, eq_comm (b := s), iff_and_self]
    exact fun _ => ‹_›
  · simp only [reduceCtorEq, false_iff, not_and]
    exact fun h => absurd h ‹_›

theorem runLoop_not_running {s : State} (hs : s.st ≠ .running) (n : Nat) : runLoop n s = .next s := by
  cases n with
  | zero => rfl
  | succ n =>
    unfold runLoop
    split
    · exact absurd ‹_› hs
    all_goals rfl

theorem runLoop_running {s t : State} (hs : s.st = .running) (ht : step s = .next t) (n : Nat) :
    runLoop (n + 1) s = runLoop n t := by
  simp [runLoop, hs, ht]

/-- One engine step more of a run loop is one step of the state it reached, also where that has stopped running. -/
theorem runLoop_succ (n : Nat) : ∀ {s u : State}, runLoop n s = .next u → runLoop (n + 1) s = step u := by
  induction n with
  | zero =>
    intro s u h
    cases h
    by_cases hs : s.st = .running
    · simp only [runLoop, hs]
      cases step s <;> rfl
    · rw [runLoop_not_running hs, step_not_running hs]
  | succ n ih =>
    intro s u h
    by_cases hs : s.st = .running
    · rcases hst : step s with t | r | r
      · rw [runLoop_running hs hst] at h ⊢
        exact ih h
      · simp [runLoop, hs, hst] at h
      · simp [runLoop, hs, hst] at h
    · rw [runLoop_not_running hs] at h ⊢
      cases h
      rw [step_not_running hs]

theorem runThen_eq_next {n : Nat} {reply r : Reply} {s t : State} (h : runThen n reply s = .next (t, r)) :
    runLoop n s = .next t := by
  unfold runThen at h
  split at h
  · cases h; assumption
  · cases h
  · cases h

theorem runThen_not_running {s : State} (hs : s.st ≠ .running) (n : Nat) (reply : Reply) :
    runThen n reply s = .next (s, reply) := by
  simp [runThen, runLoop_not_running hs, hs]

/-- A property every step keeps is kept by the run loop. -/
theorem runLoop_keeps {P : State → Prop} (hstep : ∀ s t, P s → step s = .next t → P t) (n : Nat) :
    ∀ s t, P s → runLoop n s = .next t → P t := by
  induction n with
  | zero => intro s t h e; cases e; exact h
  | succ n ih =>
    intro s t h e
    unfold runLoop at e
    split at e
    · split at e
      · exact ih _ _ (hstep _ _ h ‹_›) e
      · cases e
      · cases e
    all_goals (cases e; exact h)

/-- A property kept by steps, by the two resumes, by the misorder fault and by a POKE's store is kept by every
command. -/
theorem perform_keeps {P : State → Prop} (hstep : ∀ s t, P s → step s = .next t → P t)
    (hin : ∀ v s, P s → P (resumeInput v s)) (hout : ∀ s, P s → P (resumeOutput s).1)
    (hmis : ∀ s, P s → s.st = .running ∨ s.st = .hasOutput → P (s.setSt .faulted))
    (hpoke : ∀ a v s, P s → a < s.params.memLimit → P (s.store a v))
    (n : Nat) (c : Command) (s t : State) (r : Reply) (h : P s) (e : perform n c s = .next (t, r)) : P t := by
  have turn : P (supplyOutOfTurn s) := by
    rcases supplyOutOfTurn_cases s with hs | ⟨-, hst, hs⟩ <;> rw [hs]
    · exact h
    · exact hmis _ h hst
  cases c with
  | run => exact runLoop_keeps hstep _ _ _ h (runThen_eq_next e)
  | supply v =>
    simp only [perform, supply] at e
    split at e
    · exact runLoop_keeps hstep _ _ _ (hin _ _ h) (runThen_eq_next e)
    all_goals (cases e; exact turn)
  | consume =>
    simp only [perform, consume] at e
    split at e
    · exact runLoop_keeps hstep _ _ _ (hout _ h) (runThen_eq_next e)
    all_goals (cases e; exact h)
  | peek a => cases e; exact h
  | state => cases e; exact h
  | duplicate => cases e; exact h
  | poke a v =>
    simp only [perform] at e
    split at e
    · cases e
      obtain ⟨hl, rfl⟩ := poke_eq_next.1 ‹_›
      exact hpoke _ _ _ h hl
    · cases e
    · cases e

/-- A property every command keeps is kept by a session. -/
theorem session_keeps {P : State → Prop} (hc : ∀ n c s t r, P s → perform n c s = .next (t, r) → P t)
    (cs : List (Nat × Command)) : ∀ s, P s → P (session cs s) := by
  induction cs with
  | nil => intro s h; exact h
  | cons x cs ih =>
    intro s h
    simp only [session]
    split
    all_goals first
      | exact ih _ (hc _ _ _ _ _ h ‹_›)
      | exact hc _ _ _ _ _ h ‹_›
      | exact h
      | exact ih _ h

/-- The word a placed image holds at each of its addresses, and 0 past it. -/
theorem lookup_imageCells (ws : List Word) :
    ∀ (a k : Nat), Memory.lookup (imageCells a ws) (a + k) = ws[k]?.getD 0 := by
  induction ws with
  | nil => intro a k; simp [imageCells, Memory.lookup]
  | cons w ws ih =>
    intro a k
    cases k with
    | zero =>
      simp only [imageCells]
      split
      · subst_vars
        simp only [Nat.add_zero, List.getElem?_cons_zero, Option.getD_some]
        exact lookup_eq_zero fun x hx => by have := (mem_imageCells hx).1; omega
      · simp [Memory.lookup]
    | succ k =>
      have h := ih (a + 1) k
      rw [show a + 1 + k = a + (k + 1) by omega] at h
      simp only [imageCells]
      split
      · simpa using h
      · simpa [Memory.lookup] using h

end Sys2Proof.Machine
end

