-- ==== Sys2Proof/Laws/Decode.lean ====
section
/-! SUPPORT. What the decoder's parts answer, and the encoder's ranges. -/

namespace Sys2Proof

theorem opcodeOfNumber_eq_some {n : Nat} {op : Opcode} : opcodeOfNumber n = some op ↔ n = op.number := by
  constructor
  · intro h
    unfold opcodeOfNumber at h
    split at h <;> simp_all [Opcode.number] <;> subst_vars <;> rfl
  · rintro rfl
    cases op <;> rfl

theorem modeOfDigit_eq_some {d : Nat} {m : Mode} : modeOfDigit d = some m ↔ d = m.digit := by
  constructor
  · intro h
    unfold modeOfDigit at h
    split at h <;> simp_all [Mode.digit] <;> subst_vars <;> rfl
  · rintro rfl
    cases m <;> rfl

theorem modeOfDigit_eq_none {d : Nat} : modeOfDigit d = none ↔ 2 < d := by
  constructor
  · intro h
    by_contra hd
    obtain rfl | rfl | rfl : d = 0 ∨ d = 1 ∨ d = 2 := by omega
    all_goals cases h
  · intro h
    unfold modeOfDigit
    split <;> first | omega | rfl

theorem Opcode.number_lt (op : Opcode) : op.number < 100 := by cases op <;> decide

theorem Mode.digit_lt (m : Mode) : m.digit < 3 := by cases m <;> decide

/-- An instruction is its opcode with its three modes. -/
theorem Instr.eta (i : Instr) : i.opcode.instr i.mode1 i.mode2 i.mode3 = i := by cases i <;> rfl

@[simp] theorem Opcode.instr_opcode (op : Opcode) (a b c : Mode) : (op.instr a b c).opcode = op := by cases op <;> rfl

@[simp] theorem Opcode.instr_mode1 (op : Opcode) (a b c : Mode) : (op.instr a b c).mode1 = a := by cases op <;> rfl

@[simp] theorem Opcode.instr_mode2 (op : Opcode) (a b c : Mode) : (op.instr a b c).mode2 = b := by cases op <;> rfl

@[simp] theorem Opcode.instr_mode3 (op : Opcode) (a b c : Mode) : (op.instr a b c).mode3 = c := by cases op <;> rfl

theorem decodeModes_eq_ok {op : Opcode} {w : Nat} {i : Instr} :
    decodeModes op w = .ok i ↔
      ∃ a b c, i = op.instr a b c ∧ digit w 2 = a.digit ∧ digit w 3 = b.digit ∧ digit w 4 = c.digit := by
  unfold decodeModes
  constructor
  · intro h
    rcases h2 : modeOfDigit (digit w 2) with _ | a <;> simp only [h2] at h
    · cases h
    rcases h3 : modeOfDigit (digit w 3) with _ | b <;> simp only [h3] at h
    · cases h
    rcases h4 : modeOfDigit (digit w 4) with _ | c <;> simp only [h4] at h
    · cases h
    cases h
    exact ⟨a, b, c, rfl, modeOfDigit_eq_some.1 h2, modeOfDigit_eq_some.1 h3, modeOfDigit_eq_some.1 h4⟩
  · rintro ⟨a, b, c, rfl, h2, h3, h4⟩
    rw [modeOfDigit_eq_some.2 h2, modeOfDigit_eq_some.2 h3, modeOfDigit_eq_some.2 h4]

/-- When the decoder accepts a word, and as what. -/
theorem decode_eq_ok {W : Word} {i : Instr} :
    decode W = .ok i ↔
      0 ≤ W.toInt ∧ ∃ (op : Opcode) (a b c : Mode), W.toNat % 100 = op.number ∧ i = op.instr a b c ∧
        digit W.toNat 2 = a.digit ∧ digit W.toNat 3 = b.digit ∧ digit W.toNat 4 = c.digit := by
  unfold decode
  constructor
  · intro h
    split at h
    · cases h
    rcases ho : opcodeOfNumber (W.toNat % 100) with _ | op <;> simp only [ho] at h
    · cases h
    obtain ⟨a, b, c, h⟩ := decodeModes_eq_ok.1 h
    exact ⟨by omega, op, a, b, c, opcodeOfNumber_eq_some.1 ho, h⟩
  · rintro ⟨h0, op, a, b, c, ho, h⟩
    rw [if_neg (by omega), opcodeOfNumber_eq_some.2 ho]
    exact decodeModes_eq_ok.2 ⟨a, b, c, h⟩

/-- The canonical word is a small number, so its 64 bits hold it. -/
theorem encode_toNat (i : Instr) : (encode i).toNat = encodeNat i := by
  have h1 := i.opcode.number_lt
  have h2 := i.mode1.digit_lt
  have h3 := i.mode2.digit_lt
  have h4 := i.mode3.digit_lt
  simp only [encode, BitVec.toNat_ofNat, encodeNat]
  omega

end Sys2Proof
end

