-- ==== Sys2Proof/Laws/PerInstr.lean ====
section
/-! SUPPORT. Statements about the instruction as syntax, one lemma per constructor. -/

namespace Sys2Proof.Laws

/-- 30_encoding.md R82: the canonical word has no digit at `10^5` and above, and its two low digits are the opcode. -/
def CanonicalWord.Statement (i : Instr) : Prop :=
  encodeNat i < 100000 ∧ encodeNat i % 100 = i.opcode.number

theorem canonicalWord_of (i : Instr) : CanonicalWord.Statement i := by
  have h1 := i.opcode.number_lt
  have h2 := i.mode1.digit_lt
  have h3 := i.mode2.digit_lt
  have h4 := i.mode3.digit_lt
  simp only [CanonicalWord.Statement, encodeNat]
  omega

theorem CanonicalWord.add (a b c : Mode) : CanonicalWord.Statement (.add a b c) := canonicalWord_of _
theorem CanonicalWord.mul (a b c : Mode) : CanonicalWord.Statement (.mul a b c) := canonicalWord_of _
theorem CanonicalWord.inp (a b c : Mode) : CanonicalWord.Statement (.inp a b c) := canonicalWord_of _
theorem CanonicalWord.out (a b c : Mode) : CanonicalWord.Statement (.out a b c) := canonicalWord_of _
theorem CanonicalWord.jt (a b c : Mode) : CanonicalWord.Statement (.jt a b c) := canonicalWord_of _
theorem CanonicalWord.jf (a b c : Mode) : CanonicalWord.Statement (.jf a b c) := canonicalWord_of _
theorem CanonicalWord.lt (a b c : Mode) : CanonicalWord.Statement (.lt a b c) := canonicalWord_of _
theorem CanonicalWord.eq (a b c : Mode) : CanonicalWord.Statement (.eq a b c) := canonicalWord_of _
theorem CanonicalWord.arb (a b c : Mode) : CanonicalWord.Statement (.arb a b c) := canonicalWord_of _
theorem CanonicalWord.hlt (a b c : Mode) : CanonicalWord.Statement (.hlt a b c) := canonicalWord_of _

end Sys2Proof.Laws
end

