-- ==== Sys2Proof/Laws/World.lean ====
section
/-! SUPPORT. What a command to one machine of several can do, and what a session gives to each. -/

namespace Sys2Proof.Machine

/-- Everything a command to machine `i` can do: that machine is what the command makes of it, and the machines of the
reply stand behind the others. -/
theorem World.command_on_eq_next {n i : Nat} {c : Command} {w w' : World} {r : Reply} :
    World.command n (.on i c) w = .next (w', r) ↔
      ∃ s t, w.machines[i]? = some s ∧ perform n c s = .next (t, r) ∧
        w' = { machines := w.machines.set i t ++ r.newMachines } := by
  constructor
  · intro h
    simp only [World.command] at h
    split at h
    · cases h
    · split at h
      · cases h
        exact ⟨_, _, ‹_›, ‹_›, rfl⟩
      · cases h
      · cases h
  · rintro ⟨s, t, hs, ht, rfl⟩
    simp only [World.command, hs, ht]

/-- Everything a LOAD can do: the loaded machine stands behind the others. -/
theorem World.command_load_eq_next {n : Nat} {p : Params} {latch : Dir} {image : List Word} {w w' : World} {r : Reply} :
    World.command n (.load p latch image) w = .next (w', r) ↔
      ∃ s, Sys2Proof.Machine.load p latch image = .next s ∧ w' = { machines := w.machines ++ [s] } ∧ r = .machine s := by
  constructor
  · intro h
    simp only [World.command] at h
    split at h
    · cases h
      exact ⟨_, ‹_›, rfl, rfl⟩
    · cases h
    · cases h
  · rintro ⟨s, hs, rfl, rfl⟩
    simp only [World.command, hs]

/-- A session that gives machine `i` no command has none for it. -/
theorem commandsTo_eq_nil {i : Nat} {cs : List (Nat × HostCommand)} (h : ∀ x ∈ cs, x.2.target ≠ some i) :
    commandsTo i cs = [] := by
  induction cs with
  | nil => rfl
  | cons x cs ih =>
    obtain ⟨n, hc⟩ := x
    have rest := ih fun y hy => h y (List.mem_cons_of_mem _ hy)
    cases hc with
    | load p latch image => exact rest
    | on j c =>
      have hj : j ≠ i := fun e => h _ List.mem_cons_self (congrArg some e)
      simp only [commandsTo, hj, if_false, rest]

end Sys2Proof.Machine
end

