-- ==== Sys2Proof/Tests/Slice0.lean ====
section
/-! SUPPORT. Tests. Expected results come from spec/: 95_test_vectors.md (V and T- ids), the examples of the
instruction files, or the encoding of 30_encoding.md by hand. A `witness_` theorem shows that the hypotheses of the
statement it is named after can be met, clause by clause. -/

namespace Sys2Proof.Tests

open Sys2Proof.Machine Sys2Proof.Config

/-- A machine loaded with an image (70_reset_and_hazards.md R190). -/
def img (ws : List Word) : State := { State.reset with mem := { cells := imageCells 0 ws }, len := ws.length }

/-- The next state of an outcome. -/
def after (o : Host.Outcome State Fault Refusal) : Option State :=
  match o with
  | .next t => some t
  | .fault _ => none
  | .refused _ => none

/-- What a test looks at: `st`, `ip`, `rb`, and one cell. -/
def view (a : Nat) (t : State) : ExecState × Nat × Word × Word := (t.st, t.ip, t.rb, t.mem.read a)

/-- One engine step of a loaded image, seen through `view`. -/
def stepView (a : Nat) (ws : List Word) : Option (ExecState × Nat × Word × Word) := (after (step (img ws))).map (view a)

/-- The largest word and the smallest. -/
def wMax : Word := 9223372036854775807

def wMin : Word := 9223372036854775808

/-! ## WellFormed smoke: an ill-formed term for each check -/

theorem test_wellFormed_refuses_immediate_destination :
    (Instr.add .position .position .immediate).wellFormed = false ∧
    (Instr.inp .immediate .position .position).wellFormed = false ∧
    (Instr.add .immediate .immediate .relative).wellFormed = true := by decide

theorem test_canonical_refuses_unused_mode :
    (Instr.hlt .position .immediate .position).canonical = false ∧
    (Instr.jt .immediate .immediate .position).canonical = true := by decide

/-! ## Decoding: words written out digit by digit, one per constructor (30_encoding.md R60: `CBAoo`) -/

theorem test_decode_add : decode 21001 = .ok (.add .position .immediate .relative) := by decide
theorem test_decode_mul : decode 1202 = .ok (.mul .relative .immediate .position) := by decide
theorem test_decode_inp : decode 203 = .ok (.inp .relative .position .position) := by decide
theorem test_decode_out : decode 104 = .ok (.out .immediate .position .position) := by decide
theorem test_decode_jt : decode 2105 = .ok (.jt .immediate .relative .position) := by decide
theorem test_decode_jf : decode 1206 = .ok (.jf .relative .immediate .position) := by decide
theorem test_decode_lt : decode 20107 = .ok (.lt .immediate .position .relative) := by decide
theorem test_decode_eq : decode 11108 = .ok (.eq .immediate .immediate .immediate) := by decide
theorem test_decode_arb : decode 209 = .ok (.arb .relative .position .position) := by decide
/-- T-DEC-8. -/
theorem test_decode_hlt : decode 22299 = .ok (.hlt .relative .relative .relative) := by decide
/-- T-DEC-6. -/
theorem test_decode_high_digit : decode 100001 = .ok (.add .position .position .position) := by decide
/-- T-DEC-1 to T-DEC-4, T-DEC-9 to T-DEC-11. -/
theorem test_decode_rejects :
    decode (-1) = .error .negWord ∧ decode 0 = .error .opcode ∧ decode 10 = .error .opcode ∧
    decode 98 = .error .opcode ∧ decode 399 = .error .mode ∧ decode 3099 = .error .mode ∧
    decode 30099 = .error .mode := by decide

/-- The example of 30_encoding.md R82, and the idioms of R80. -/
theorem test_assembly :
    (Line.add (.cell 9) (.imm 3) (.rel 2)).words = [21001, 9, 3, 2] ∧
    (Line.jt (.imm 1) (.imm 7)).words = [1105, 1, 7] ∧
    (Line.add (.cell 5) (.imm 0) (.cell 6)).words = [1001, 5, 0, 6] ∧
    (Line.jf (.imm 1) (.imm 0)).words = [1106, 1, 0] ∧ Line.hlt.words = [99] ∧
    (Line.data (-3)).words = [-3] := by decide

/-! ## Instructions, one step each -/

/-- T-ADD-5. -/
theorem test_add_exact : stepView 5 [1101, wMax, wMin, 5, 99, 0] = some (.running, 4, 0, -1) := by decide
/-- T-ADD-3. -/
theorem test_add_overflow_faults : stepView 5 [1101, wMax, 1, 5, 99, 0] = some (.faulted, 0, 0, 0) := by decide
/-- T-MUL-1. -/
theorem test_mul_above_32_bits : stepView 5 [1102, 65536, 65537, 5, 99, 0] = some (.running, 4, 0, 4295032832) := by
  decide
/-- T-MUL-3. -/
theorem test_mul_overflow_faults : stepView 5 [1102, wMin, -1, 5, 99, 0] = some (.faulted, 0, 0, 0) := by decide
/-- T-IO-3: an Immediate IN suspends; its fault comes at SUPPLY. -/
theorem test_inp_immediate_suspends_then_faults :
    stepView 0 [103, 5, 99] = some (.awaitingInput, 0, 0, 103) ∧
    ((after (step (img [103, 5, 99]))).map fun t => view 0 (resumeInput 7 t)) = some (.faulted, 0, 0, 103) := by decide
/-- T-IO-7: IN overwrites its own parameter word. -/
theorem test_inp_own_parameter :
    ((after (step (img [3, 1, 99]))).map fun t => view 1 (resumeInput 55 t)) = some (.running, 2, 0, 55) := by decide
/-- T-IO-9: the operand fault of an OUT comes at CONSUME. -/
theorem test_out_negative_address :
    stepView 0 [4, -1, 99] = some (.hasOutput, 0, 0, 4) ∧
    ((after (step (img [4, -1, 99]))).map fun t => ((resumeOutput t).1.st, (resumeOutput t).2)) =
      some (.faulted, .noValue) := by decide
/-- T-IO-10: a source cell past the length outputs 0. -/
theorem test_out_past_length :
    ((after (step (img [4, 100, 99]))).map fun t => ((resumeOutput t).1.ip, (resumeOutput t).2)) =
      some (2, .word 0) := by decide
/-- T-JMP-4: not taken, slot 2 not resolved. -/
theorem test_jt_not_taken : stepView 0 [5, 4, -1, 99, 0] = some (.running, 3, 0, 5) := by decide
/-- T-JMP-3. -/
theorem test_jt_negative_target : stepView 0 [1105, 1, -1, 99] = some (.faulted, 0, 0, 1105) := by decide
/-- T-JMP-5, its first step. -/
theorem test_jf_taken : stepView 0 [1106, 0, 9] = some (.running, 9, 0, 1106) := by decide
/-- T-JMP-6, its first step. -/
theorem test_jf_not_taken : stepView 0 [1106, 5, 9, 99] = some (.running, 3, 0, 1106) := by decide
/-- T-CMP-4. -/
theorem test_lt_signed : stepView 0 [1107, wMin, wMax, 0, 99] = some (.running, 4, 0, 1) := by decide
/-- T-CMP-2. -/
theorem test_lt_equal_is_zero : stepView 0 [1107, 5, 5, 0, 99] = some (.running, 4, 0, 0) := by decide
/-- T-CMP-9. -/
theorem test_eq_aliased : stepView 0 [8, 0, 0, 0, 99] = some (.running, 4, 0, 1) := by decide
/-- T-CMP-8. -/
theorem test_eq_immediate_destination : stepView 0 [11108, 7, 7, 0, 99] = some (.faulted, 0, 0, 11108) := by decide
/-- T-ARB-5, its second step: the operand is read with the old base. -/
theorem test_arb_uses_old_base :
    (after (step { img [109, 2, 209, 0, 99] with ip := 2, rb := 2 })).map (view 0) = some (.running, 4, 211, 109) := by
  decide
/-- T-ARB-6, its second step. -/
theorem test_arb_overflow_faults :
    (after (step { img [109, wMax, 109, 1, 99] with ip := 2, rb := wMax })).map (view 0) =
      some (.faulted, 2, wMax, 109) := by decide
/-- T-DEC-8 and T-DEC-9. -/
theorem test_hlt_checks_unused_modes :
    stepView 0 [22299] = some (.halted, 0, 0, 22299) ∧ stepView 0 [399] = some (.faulted, 0, 0, 399) := by decide

/-! ## Host commands -/

/-- T-ADD-10: a write at `MEM_LIMIT` faults. -/
theorem test_memLimit_faults :
    (after (step { img [1101, 1, 1, 6, 99, 0] with params := { memLimit := 6, misorderSupply := .noop } })).map (view 6) =
      some (.faulted, 0, 0, 0) := by decide

/-- The result of a command, through `view` and the reply. -/
def result (a : Nat) (o : Host.Outcome (State × Reply) Fault Refusal) :
    Option ((ExecState × Nat × Word × Word) × Reply) :=
  match o with
  | .next x => some (view a x.1, x.2)
  | .fault _ => none
  | .refused _ => none

/-- T-HOST-1 and T-HOST-3: SUPPLY before RUN. -/
theorem test_supply_before_run :
    result 0 (perform 9 (.supply 5) (img [3, 0, 4, 0, 99])) = some ((.running, 0, 0, 3), .done) ∧
    result 0 (perform 9 (.supply 5)
      { img [3, 0, 4, 0, 99] with params := { memLimit := 9, misorderSupply := .fault } }) =
        some ((.faulted, 0, 0, 3), .done) := by decide

/-- V7: CONSUME while Running. -/
theorem test_consume_before_run :
    result 0 (perform 9 .consume (img [104, 1, 99])) = some ((.running, 0, 0, 104), .noValue) := by decide

/-- T-HOST-9 and T-HOST-10. -/
theorem test_poke_when_halted :
    result 5 (perform 0 (.poke 5 1) { img [99] with st := .halted }) = some ((.halted, 0, 0, 1), .done) ∧
    peek 9223372036854775808 (img [99]) = 0 := by decide

/-- T-HOST-6 and T-HOST-7: a POKE during the suspension moves the destination, a POKE of the word keeps the mode. -/
theorem test_poke_while_suspended :
    ((after (step (img [3, 5, 99, 0, 0, 0]))).map fun t =>
      (view 4 (resumeInput 77 (t.store 1 4)), view 5 (resumeInput 77 (t.store 0 103)))) =
        some ((.running, 2, 0, 77), (.running, 2, 0, 77)) := by decide

/-- 40_engine.md R91, R93, R102: a machine whose RUN has not returned gets no further command, another machine does. -/
theorem test_session_passes_over_busy_machine :
    World.session [(1, .on 0 .run), (0, .on 0 (.poke 0 7)), (0, .on 1 (.poke 0 7))]
        { machines := [img [1106, 0, 0], img [99]] } =
      { machines := [latch (.jf .immediate .immediate .position) (img [1106, 0, 0]), (img [99]).store 0 7] } := rfl

/-! ## The host's interface -/

theorem test_decodeTableWord :
    decodeTableWord 8 4 = some (.out .position .position .position) ∧
    decodeTableWord 64 21001 = some (.add .position .immediate .relative) ∧ decodeTableWord 8 0 = none := by decide

/-- Every canonical word, placed after reset, is the instruction the next step runs: the latch holds its opcode. -/
theorem test_withFetchWord_runs :
    ∀ n ∈ [1, 2, 3, 4, 5, 6, 7, 8, 9, 99],
      ((after (step (State.reset.withFetchWord 64 n))).map fun t => t.dir.op.number) = some n := by decide

theorem test_tableWord_second_word : tableWord 128 (1101 + 7 * 2 ^ 64) 1 = 7 ∧ tableWord 64 (1101 + 7 * 2 ^ 64) 1 = 0 := by
  decide

/-! ## Witnesses: the hypotheses of the statements can be met, clause by clause -/

/-- A machine suspended at its first instruction, an IN or an OUT in mode `m`. -/
def suspended (e : ExecState) (op : Opcode) (m : Mode) (ws : List Word) : State :=
  { img ws with st := e, dir := { op := op, mode1 := m, mode2 := .position, mode3 := .position } }

theorem witness_DecodeFollowsDecimalDigits :
    (-1 : Word).toInt < 0 ∧ (∀ op : Opcode, op.number ≠ (98 : Word).toNat % 100) ∧
    (∃ op : Opcode, op.number = (30099 : Word).toNat % 100) ∧ 2 < (30099 : Word).toNat / 10000 % 10 ∧
    Opcode.add.number = (21001 : Word).toNat % 100 ∧ Mode.position.digit = (21001 : Word).toNat / 100 % 10 ∧
    Mode.immediate.digit = (21001 : Word).toNat / 1000 % 10 ∧ Mode.relative.digit = (21001 : Word).toNat / 10000 % 10 ∧
    (img [21001]).st = .running ∧ (img [21001]).mem.read (img [21001]).ip = 21001 ∧
    decode (0 : Word) = .error .opcode ∧ (img []).mem.read (img []).ip = 0 :=
  ⟨by decide, fun op => by cases op <;> decide, ⟨.hlt, by decide⟩, by decide, by decide, by decide, by decide, by decide,
    by decide, by decide, by decide, by decide⟩

theorem witness_HighDigitsAreIgnored :
    0 ≤ (100001 : Word).toInt ∧ 0 ≤ (1 : Word).toInt ∧ (100001 : Word).toNat % 100000 = (1 : Word).toNat % 100000 := by
  decide

theorem witness_StepRunsDecodedInstruction :
    (img [99]).st = .running ∧ decode ((img [99]).mem.read (img [99]).ip) = .ok (.hlt .position .position .position) := by
  decide

theorem witness_IllegalOpcodeFaultsAtDecode :
    ((img [-1]).mem.read 0).toInt < 0 ∧ ((img [98]).mem.read 0).toNat % 100 ∉ [1, 2, 3, 4, 5, 6, 7, 8, 9, 99] ∧
    (img []).mem.read 0 = 0 ∧ (img [-1]).st = .running := by decide

theorem witness_ParameterFetchReadsNextWords :
    { img [99] with ip := addrMax - 1 }.ip + 1 ≤ addrMax ∧ addrMax < { img [99] with ip := addrMax }.ip + 1 ∧
    (img [99]).Inv ∧ (img [99]).len ≤ (img [99]).ip + 1 ∧ (img [99]).ip + 1 ≤ addrMax := by decide

theorem witness_RelativeAddressIsExactSum :
    (-1 : Word).toInt + (img []).rb.toInt < 0 ∧ (addrMax : Int) < wMax.toInt + { img [] with rb := 1 }.rb.toInt ∧
    ((addrMax : Nat) : Int) = wMax.toInt + (img []).rb.toInt ∧ (0 : Int) = wMax.toInt + { img [] with rb := -wMax }.rb.toInt := by
  decide

/-- `fetchParam` answering a literal or a fault, and the clauses of `read` and `write` on it. -/
theorem witness_ReadResolvesByMode :
    fetchParam 1 { img [] with ip := addrMax } = .error .addrSpace ∧
    fetchParam 1 (img [1, -1]) = .ok (-1) ∧ (-1 : Word).toInt < 0 ∧ eaRel (-1) (img [1, -1]) = .error .negAddr ∧
    fetchParam 1 (img [1, 0]) = .ok 0 ∧ 0 ≤ (0 : Word).toInt ∧ eaRel 0 (img [1, 0]) = .ok 0 := by decide

theorem witness_WriteResolvesByMode :
    fetchParam 3 { img [] with ip := addrMax } = .error .addrSpace ∧
    fetchParam 3 (img [1, 0, 0, -1]) = .ok (-1) ∧ (-1 : Word).toInt < 0 ∧
    eaRel (-1) (img [1, 0, 0, -1]) = .error .negAddr ∧ fetchParam 3 (img [1, 0, 0, 5]) = .ok 5 ∧ 0 ≤ (5 : Word).toInt ∧
    eaRel 5 (img [1, 0, 0, 5]) = .ok 5 := by decide

theorem witness_MemWriteStoresOneWord :
    (img [99]).mem.wf ∧ (img [99]).params.memLimit ≤ addrMax + 1 ∧ addrMax < (img [99]).params.memLimit := by decide

theorem witness_ReadPastLengthIsZero : (img [99]).Inv ∧ (img [99]).len ≤ 1 := by decide

theorem witness_ArithmeticNeverTruncates : ¬ ∃ w : Word, w.toInt = wordMax + 1 := by
  rintro ⟨w, h⟩
  have := (fits_toInt w).2
  omega

theorem witness_AddStoresExactSum :
    ThreeParamReady .immediate .immediate .position (img [1101, wMax, wMin, 5]) wMax wMin 5 ∧
    Fits (wMax.toInt + wMin.toInt) ∧
    ¬ ∃ x y d, ThreeParamReady .immediate .immediate .position (img [1101, wMax, 1, 5]) x y d ∧
      Fits (x.toInt + y.toInt) := by
  refine ⟨by decide, by decide, ?_⟩
  rintro ⟨x, y, d, ⟨hx, hy, -⟩, hf⟩
  cases (show (Except.ok wMax : Except Fault Word) = .ok x from hx)
  cases (show (Except.ok 1 : Except Fault Word) = .ok y from hy)
  revert hf
  decide

theorem witness_MulStoresExactProduct :
    ThreeParamReady .immediate .immediate .position (img [1102, wMin, 1, 5]) wMin 1 5 ∧ Fits (wMin.toInt * 1) ∧
    ¬ ∃ x y d, ThreeParamReady .immediate .immediate .position (img [1102, wMin, -1, 5]) x y d ∧
      Fits (x.toInt * y.toInt) := by
  refine ⟨by decide, by decide, ?_⟩
  rintro ⟨x, y, d, ⟨hx, hy, -⟩, hf⟩
  cases (show (Except.ok wMin : Except Fault Word) = .ok x from hx)
  cases (show (Except.ok (-1) : Except Fault Word) = .ok y from hy)
  revert hf
  decide

theorem witness_LtStoresSignedComparison :
    ThreeParamReady .immediate .immediate .relative (img [21107, wMin, wMax, 0]) wMin wMax 0 ∧
    ¬ ∃ x y d, ThreeParamReady .immediate .immediate .immediate (img [11107, 1, 2, 0]) x y d := by
  refine ⟨by decide, ?_⟩
  rintro ⟨x, y, d, -, -, -, hd, -⟩
  cases hd

theorem witness_EqStoresEquality :
    ThreeParamReady .position .position .position (img [8, 0, 0, 0]) 8 8 0 ∧
    ¬ ∃ x y d, ThreeParamReady .immediate .immediate .immediate (img [11108, 7, 7, 0]) x y d := by
  refine ⟨by decide, ?_⟩
  rintro ⟨x, y, d, -, -, -, hd, -⟩
  cases hd

/-- Each clause of a jump: a fault of slot 1, a fault of slot 2, a negative target, a target 0, an advance at and past
the top of the address space. -/
theorem witness_JtJumpsWhenNonzero :
    readParam .position 1 (img [5, -1]) = .error .negAddr ∧
    readParam .immediate 1 (img [105, 1, -1]) = .ok 1 ∧ (1 : Word).toInt ≠ 0 ∧
    readParam .position 2 (img [105, 1, -1]) = .error .negAddr ∧
    readParam .immediate 2 (img [1105, 1, -1]) = .ok (-1) ∧ (-1 : Word).toInt < 0 ∧
    readParam .immediate 2 (img [1105, 1, 0]) = .ok 0 ∧ 0 ≤ (0 : Word).toInt ∧ (0 : Word).toInt = 0 ∧
    readParam .immediate 1 { img [] with ip := addrMax - 3 } = .ok 0 ∧ (addrMax - 3) + 3 ≤ addrMax ∧
    readParam .immediate 1 { img [] with ip := addrMax - 2 } = .ok 0 ∧ addrMax < (addrMax - 2) + 3 := by decide

theorem witness_JfJumpsWhenZero :
    readParam .position 1 (img [6, -1]) = .error .negAddr ∧
    readParam .immediate 1 (img [106, 0, -1]) = .ok 0 ∧ (0 : Word).toInt = 0 ∧
    readParam .position 2 (img [106, 0, -1]) = .error .negAddr ∧
    readParam .immediate 2 (img [1106, 0, -1]) = .ok (-1) ∧ readParam .immediate 2 (img [1106, 0, 0]) = .ok 0 ∧
    readParam .relative 1 { img [206, 0] with ip := addrMax - 3, rb := 0 } = .ok 206 ∧ (206 : Word).toInt ≠ 0 ∧
    readParam .relative 1 { img [206, 0] with ip := addrMax - 2, rb := 0 } = .ok 206 := by decide

theorem witness_ArbAddsToRelativeBase :
    readParam .immediate 1 (img [109, wMin]) = .ok wMin ∧ Fits ((img [109, wMin]).rb.toInt + wMin.toInt) ∧
    (img [109, wMin]).ip + 2 ≤ addrMax ∧
    ¬ ∃ x, readParam .position 1 (img [9, -1]) = .ok x ∧ Fits ((img [9, -1]).rb.toInt + x.toInt) ∧
      (img [9, -1]).ip + 2 ≤ addrMax := by
  refine ⟨by decide, by decide, by decide, ?_⟩
  rintro ⟨x, hx, -⟩
  cases hx

theorem witness_InputStoresSuppliedValue :
    (img [203, 7]).st = .running ∧ decode ((img [203, 7]).mem.read 0) = .ok (.inp .relative .position .position) ∧
    (img [203, 7]).ip + 2 ≤ addrMax ∧ destAddr .relative 1 (img [203, 7]) = .ok 7 ∧ 7 < (img [203, 7]).params.memLimit := by
  decide

theorem witness_OutputDeliversOperand :
    (img [4, 0]).st = .running ∧ decode ((img [4, 0]).mem.read 0) = .ok (.out .position .position .position) ∧
    readParam .position 1 (img [4, 0]) = .ok 4 ∧ (img [4, 0]).ip + 2 ≤ addrMax := by decide

theorem witness_StoringInstructionsFrame :
    exec (.lt .immediate .immediate .position) (img [1107, 1, 2, 5]) =
      .next ((((img [1107, 1, 2, 5]).store 5 1)).setIp 4) ∧
    destAddr .position 3 (img [1107, 1, 2, 5]) = .ok 5 ∧
    exec (.eq .immediate .immediate .immediate) (img [11108, 1, 2, 5]) =
      .next ((img [11108, 1, 2, 5]).setSt .faulted) ∧
    destAddr .immediate 3 (img [11108, 1, 2, 5]) = .error .immWrite := ⟨rfl, rfl, rfl, rfl⟩

theorem witness_NonStoringInstructionsFrame :
    exec (.out .immediate .position .position) (img [104, 5]) = .next ((img [104, 5]).setSt .hasOutput) ∧
    exec (.jt .immediate .immediate .position) (img [1105, 1, 7]) = .next ((img [1105, 1, 7]).setIp 7) ∧
    exec (.arb .immediate .position .position) (img [109, 19]) = .next (((img [109, 19]).setRb 19).setIp 2) :=
  ⟨rfl, rfl, rfl⟩

/-- A step that faults at decode, one that faults after a successful decode, and a fault of each other kind. -/
theorem witness_FaultsArePrecise :
    (img [399]).st = .running ∧ decode ((img [399]).mem.read 0) = .error .mode ∧
    step (img [399]) = .next ((img [399]).setSt .faulted) ∧
    (img [11108, 7, 7, 0]).st = .running ∧
    decode ((img [11108, 7, 7, 0]).mem.read 0) = .ok (.eq .immediate .immediate .immediate) ∧
    step (img [11108, 7, 7, 0]) =
      .next ((latch (.eq .immediate .immediate .immediate) (img [11108, 7, 7, 0])).setSt .faulted) ∧
    (resumeInput 1 (suspended .awaitingInput .inp .immediate [103, 5])).st = .faulted ∧
    (resumeOutput (suspended .hasOutput .out .position [4, -1])).1.st = .faulted ∧
    (supplyOutOfTurn { img [99] with params := { memLimit := 9, misorderSupply := .fault } }).st = .faulted :=
  ⟨rfl, rfl, rfl, rfl, rfl, rfl, rfl, rfl, rfl⟩

theorem witness_OnlyArbChangesRelativeBase :
    step (img [109, 19]) = .next (((latch (.arb .immediate .position .position) (img [109, 19])).setRb 19).setIp 2) ∧
    ((latch (.arb .immediate .position .position) (img [109, 19])).setRb 19).rb ≠ (img [109, 19]).rb ∧
    poke 0 1 (img [99]) = .next ((img [99]).store 0 1) ∧
    load Params.standard Dir.atReset [99] = .next (img [99]) ∧
    perform 0 .duplicate (img [99]) = .next (img [99], .machine (img [99])) :=
  ⟨rfl, by decide, rfl, rfl, rfl⟩

/-- The clauses about the engine steps of a command, and about commands that run none: `rb` moves from 0 to 19 with the
one step more, an ARB; RUN, SUPPLY and CONSUME are out of turn on the last three machines. -/
theorem witness_OnlyArbChangesRelativeBase_commands :
    perform 0 .run (img [109, 19]) = .next (img [109, 19], .notReturned) ∧
    perform 1 .run (img [109, 19]) =
      .next (((latch (.arb .immediate .position .position) (img [109, 19])).setRb 19).setIp 2, .notReturned) ∧
    (((latch (.arb .immediate .position .position) (img [109, 19])).setRb 19).setIp 2).rb ≠ (img [109, 19]).rb ∧
    RunsEngine .run (img [109, 19]) ∧ ¬ RunsEngine .state (img [109, 19]) ∧ ¬ RunsEngine (.peek 0) (img [109, 19]) ∧
    ¬ RunsEngine (.supply 5) (img [109, 19]) ∧ ¬ RunsEngine .run ((img [99]).setSt .halted) ∧
    ¬ RunsEngine .consume (img [99]) ∧ perform 3 .consume (img [99]) = .next (img [99], .noValue) :=
  ⟨rfl, rfl, by decide, rfl, by decide, by decide, by decide, by decide, by decide, rfl⟩

/-- The clauses about what depends on `rb`: a negative base and an address that is none; HLT in Relative modes it does
not use; a pending IN that is not in Relative mode. -/
theorem witness_OnlyArbChangesRelativeBase_reads :
    ((0 : Nat) : Int) = wMax.toInt + { img [] with rb := -wMax }.rb.toInt ∧ 0 ≤ addrMax ∧
    Instr.opcode (.hlt .relative .relative .relative) ≠ .arb ∧ NoRelativeSlot (.hlt .relative .relative .relative) ∧
    NoRelativeSlot (.eq .immediate .position .immediate) ∧ ¬ NoRelativeSlot (.eq .immediate .relative .immediate) ∧
    decode ((img [22299]).mem.read (img [22299]).ip) = .ok (.hlt .relative .relative .relative) ∧
    (suspended .awaitingInput .inp .position [3, 0, 99]).dir.mode1 ≠ .relative := by decide

theorem witness_LengthOnlyGrows :
    step (img [1101, 1, 2, 9]) =
      .next (((latch (.add .immediate .immediate .position) (img [1101, 1, 2, 9])).store 9 3).setIp 4) := rfl

theorem witness_ExecStateTransitions :
    load Params.standard Dir.atReset [99] = .next (img [99]) ∧
    (img [99]).st = .running ∧ step (img [99]) =
      .next ((latch (.hlt .position .position .position) (img [99])).setSt .halted) ∧
    perform 0 (.poke 0 1) (img [99]) = .next ((img [99]).store 0 1, .done) ∧
    ((img [99]).setSt .halted).Terminal ∧
    perform 0 .run ((img [99]).setSt .halted) = .next ((img [99]).setSt .halted, .done) :=
  ⟨rfl, rfl, rfl, rfl, .inl rfl, rfl⟩

theorem witness_TerminalStatesAreFinal :
    ((img [99]).setSt .faulted).Terminal ∧ ∀ n a v, (n, Command.poke a v) ∉ [(3, Command.run), (0, Command.consume)] :=
  ⟨.inr rfl, by intro n a v h; simp at h⟩

/-- A state that meets the invariant at its edges, and one of its steps. -/
theorem witness_StepKeepsInvariant :
    { img [1101, 1, 2, 5, 99, 0] with params := { memLimit := 6, misorderSupply := .fault } }.Inv ∧ State.reset.Inv ∧
    { State.reset with ip := addrMax }.Inv ∧ step State.reset = .next (State.reset.setSt .faulted) :=
  ⟨by decide, by decide, by decide, rfl⟩

theorem witness_CommandsKeepInvariant :
    (suspended .awaitingInput .inp .position [3, 0, 99]).Inv ∧
    perform 0 (.supply 7) (suspended .awaitingInput .inp .position [3, 0, 99]) =
      .next ((((suspended .awaitingInput .inp .position [3, 0, 99]).store 0 7).setIp 2).setSt .running, .notReturned) :=
  ⟨by decide, rfl⟩

theorem witness_LoadedMachineMeetsInvariant :
    Params.standard.wf ∧ load Params.standard Dir.atReset [99] = .next (img [99]) := ⟨by decide, rfl⟩

theorem witness_LoadSetsEveryState : [(1 : Word), 0, 99].length ≤ ({ memLimit := 3, misorderSupply := .noop } : Params).memLimit := by
  decide

theorem witness_LoadedInstructionRunsFirst :
    (assemble (.add .immediate .immediate .position) 1 2 5 ++ [99]).length ≤ Params.standard.memLimit ∧
    3 ≤ (Instr.add .immediate .immediate .position).opcode.paramCount := by decide

theorem witness_PlacedTableWordRuns :
    State.reset.mem.wf ∧ State.reset.ip ≤ addrMax ∧ { State.reset with ip := addrMax }.ip ≤ addrMax ∧
    decodeTableWord 64 104 = some (.out .immediate .position .position) := by decide

theorem witness_RunRepeatsSteps :
    ((img [99]).setSt .halted).st ≠ .running ∧ (img [99]).st = .running ∧
    step (img [99]) = .next ((latch (.hlt .position .position .position) (img [99])).setSt .halted) :=
  ⟨by decide, rfl, rfl⟩

theorem witness_RunBudgetDoesNotMatter :
    1 ≤ 5 ∧ runLoop 1 (img [99]) = .next ((latch (.hlt .position .position .position) (img [99])).setSt .halted) ∧
    ((latch (.hlt .position .position .position) (img [99])).setSt .halted).st ≠ .running := ⟨by decide, rfl, by decide⟩

theorem witness_SupplyCompletesPendingInput :
    (suspended .awaitingInput .inp .position [3, 0, 99]).st = .awaitingInput ∧
    InputReady (suspended .awaitingInput .inp .position [3, 0, 99]) 0 ∧
    ¬ ∃ d, InputReady (suspended .awaitingInput .inp .immediate [103, 5, 99]) d := by
  refine ⟨by decide, by decide, ?_⟩
  rintro ⟨d, -, hd, -⟩
  cases hd

theorem witness_ConsumeDeliversPendingOutput :
    (suspended .hasOutput .out .immediate [104, 5, 99]).st = .hasOutput ∧
    OutputReady (suspended .hasOutput .out .immediate [104, 5, 99]) 5 ∧
    ¬ ∃ x, OutputReady (suspended .hasOutput .out .position [4, -1, 99]) x := by
  refine ⟨by decide, by decide, ?_⟩
  rintro ⟨x, hx, -⟩
  cases hx

theorem witness_OutOfTurnCommandsChangeNothing :
    (suspended .hasOutput .out .immediate [104, 1]).st ≠ .running ∧ (img [99]).st ≠ .hasOutput ∧
    (img [99]).st ≠ .awaitingInput ∧ (img [99]).params.misorderSupply = .noop ∧ ((img [99]).setSt .halted).Terminal ∧
    { img [99] with params := { memLimit := 9, misorderSupply := .fault } }.params.misorderSupply = .fault := by decide

theorem witness_PeekReadsOneWord : addrMax ≤ addrMax ∧ addrMax < addrMax + 1 := by decide

theorem witness_PokeWritesOneWord :
    (img [99]).mem.wf ∧ addrMax < (img [99]).params.memLimit ∧ (img [99]).params.memLimit ≤ addrMax + 1 := by decide

theorem witness_OversizedImageIsRefused : ({ memLimit := 1, misorderSupply := .noop } : Params).memLimit < [(0 : Word), 0].length := by
  decide

/-- A machine that can be duplicated; sessions that give no command to the copy, and none to the original; and one in
which both are written, each with its own word. -/
theorem witness_DuplicateIsIndependentCopy :
    ({ machines := [img [99]] } : World).machines[0]? = some (img [99]) ∧
    (∀ x ∈ [(0, HostCommand.on 0 (.poke 0 1)), (0, .load Params.standard Dir.atReset [99])], x.2.target ≠ some 1) ∧
    (∀ x ∈ [(0, HostCommand.on 1 (.poke 0 1)), (0, .on 1 .duplicate)], x.2.target ≠ some 0) ∧
    World.session [(0, .on 0 (.poke 0 1)), (0, .on 1 (.poke 0 2))] { machines := [img [99], img [99]] } =
      { machines := [(img [99]).store 0 1, (img [99]).store 0 2] } := ⟨rfl, by decide, by decide, rfl⟩

theorem witness_CommandsTouchOneMachine :
    0 ≠ 1 ∧ 1 < ({ machines := [img [99], img [104, 5]] } : World).machines.length ∧
    World.command 0 (.on 0 .state) { machines := [img [99], img [104, 5]] } =
      .next ({ machines := [img [99], img [104, 5]] }, .execState .running) ∧
    World.command 0 (.load Params.standard Dir.atReset [99]) { machines := [img [104, 5]] } =
      .next ({ machines := [img [104, 5], img [99]] }, .machine (img [99])) := ⟨by decide, by decide, rfl, rfl⟩

theorem witness_NextFetchSeesStoredWord :
    (img [1101, 90, 9, 4, 0]).mem.wf ∧ (img [1101, 90, 9, 4, 0]).st = .running ∧
    decode ((img [1101, 90, 9, 4, 0]).mem.read 0) = .ok (.add .immediate .immediate .position) ∧
    ThreeParamReady .immediate .immediate .position (img [1101, 90, 9, 4, 0]) 90 9 (0 + 4) ∧
    (99 : Word).toInt = (90 : Word).toInt + (9 : Word).toInt ∧
    decode 99 = .ok (.hlt .position .position .position) := by decide

theorem witness_PokedLiteralMovesPendingInput :
    let s := suspended .awaitingInput .inp .position [3, 5, 99]
    s.mem.wf ∧ s.st = .awaitingInput ∧ s.dir.mode1 = .position ∧ s.ip + 2 ≤ addrMax ∧ s.ip + 1 < s.params.memLimit ∧
      0 ≤ (4 : Word).toInt ∧ (4 : Word).toNat < s.params.memLimit := by decide

theorem witness_PokedOpcodeKeepsPendingInput :
    (suspended .awaitingInput .inp .position [3, 5, 99]).st = .awaitingInput ∧
    InputReady (suspended .awaitingInput .inp .position [3, 5, 99]) 5 ∧
    poke 0 103 (suspended .awaitingInput .inp .position [3, 5, 99]) =
      .next ((suspended .awaitingInput .inp .position [3, 5, 99]).store 0 103) := ⟨by decide, by decide, rfl⟩

end Sys2Proof.Tests
end

section
/-! PROOFS of the family 10_state.md: the relative base. `rb` is written by ARB alone, and what has no used slot in
Relative mode does the same on every base (10_state.md R24). -/

namespace Sys2Proof.Machine

/-! ### The instructions on another base -/

@[simp] theorem nextIp_setRb (n : Nat) (s : State) (w : Word) : nextIp n (s.setRb w) = nextIp n s := rfl

/-- Puts `Except.map` in the form the laws of monads are stated in. -/
theorem exceptMap_eq_map {α β : Type} (x : Except Fault α) (g : α → β) : x.map g = g <$> x := rfl

theorem threeParam_setRb (f : Word → Word → Except Fault Word) {a b c : Mode} (ha : a ≠ .relative) (hb : b ≠ .relative)
    (hc : c ≠ .relative) (s : State) (w : Word) :
    threeParam f a b c (s.setRb w) = (·.setRb w) <$> threeParam f a b c s := by
  simp only [threeParam, readParam_setRb ha, readParam_setRb hb, writeParam_setRb hc, nextIp_setRb, exceptMap_eq_map,
    map_bind, bind_map_left]
  rfl

theorem jumpWhen_setRb (taken : Word → Bool) {a b : Mode} (ha : a ≠ .relative) (hb : b ≠ .relative) (s : State)
    (w : Word) : jumpWhen taken a b (s.setRb w) = (·.setRb w) <$> jumpWhen taken a b s := by
  simp only [jumpWhen, readParam_setRb ha, readParam_setRb hb, nextIp_setRb, map_bind]
  refine bind_congr fun c => ?_
  split
  · simp only [map_bind]
    refine bind_congr fun t => ?_
    split <;> rfl
  · simp only [map_bind]
    rfl

/-- ARB is left out: it adds to `rb` in every mode of its slot (45_base_halt.md R160). -/
theorem effectOf_setRb {i : Instr} (harb : i.opcode ≠ .arb) (hrel : NoRelativeSlot i) (s : State) (w : Word) :
    effectOf i (s.setRb w) = (·.setRb w) <$> effectOf i s := by
  obtain ⟨h1, h2, h3⟩ := hrel
  have three (f : Word → Word → Except Fault Word) (hn : i.opcode.paramCount = 3) :
      threeParam f i.mode1 i.mode2 i.mode3 (s.setRb w) = (·.setRb w) <$> threeParam f i.mode1 i.mode2 i.mode3 s :=
    threeParam_setRb f (h1 (by omega)) (h2 (by omega)) (h3 (by omega)) s w
  have jump (taken : Word → Bool) (hn : i.opcode.paramCount = 2) :
      jumpWhen taken i.mode1 i.mode2 (s.setRb w) = (·.setRb w) <$> jumpWhen taken i.mode1 i.mode2 s :=
    jumpWhen_setRb taken (h1 (by omega)) (h2 (by omega)) s w
  cases i with
  | add a b c => exact three _ rfl
  | mul a b c => exact three _ rfl
  | lt a b c => exact three _ rfl
  | eq a b c => exact three _ rfl
  | jt a b c => exact jump _ rfl
  | jf a b c => exact jump _ rfl
  | arb a b c => exact absurd rfl harb
  | inp a b c => rfl
  | out a b c => rfl
  | hlt a b c => rfl

theorem exec_setRb {i : Instr} (harb : i.opcode ≠ .arb) (hrel : NoRelativeSlot i) (s : State) (w : Word) :
    ∃ t, exec i s = .next t ∧ exec i (s.setRb w) = .next (t.setRb w) := by
  simp only [exec_eq_commit, effectOf_setRb harb hrel]
  cases effectOf i s with
  | ok t => exact ⟨t, rfl, rfl⟩
  | error r => exact ⟨raiseFault r s, rfl, rfl⟩

theorem step_setRb (s : State) (w : Word)
    (h : ∀ i, decode (s.mem.read s.ip) = .ok i → i.opcode ≠ .arb ∧ NoRelativeSlot i) :
    ∃ t, step s = .next t ∧ step (s.setRb w) = .next (t.setRb w) := by
  by_cases hs : s.st = .running
  · have hs' : (s.setRb w).st = .running := hs
    rcases hd : decode (s.mem.read s.ip) with r | i
    · exact ⟨_, step_running_error hs hd, step_running_error hs' hd⟩
    · obtain ⟨harb, hrel⟩ := h i hd
      rw [step_running_ok hs hd, step_running_ok hs' hd]
      exact exec_setRb harb hrel (latch i s) w
  · exact ⟨s, step_not_running hs, step_not_running (s := s.setRb w) hs⟩

/-! ### The instruction that writes the base -/

theorem eq_arb_of_opcode {i : Instr} (h : i.opcode = .arb) : i = .arb i.mode1 i.mode2 i.mode3 := by
  have heta := i.eta
  rw [h] at heta
  exact heta.symm

/-- Of the effects of the ten instructions, only ARB's writes `rb`. -/
theorem effectOf_rb {i : Instr} {s t : State} (h : effectOf i s = .ok t) (hrb : t.rb ≠ s.rb) : i.opcode = .arb := by
  obtain ⟨d, r, -, -, -, rfl⟩ | ⟨a, -, rfl⟩ | ⟨r, -, rfl, harb⟩ | ⟨-, rfl⟩ | ⟨-, rfl⟩ | ⟨-, rfl⟩ := effectOf_cases h
  · exact absurd rfl hrb
  · exact absurd rfl hrb
  · exact harb
  · exact absurd rfl hrb
  · exact absurd rfl hrb
  · exact absurd rfl hrb

theorem step_rb {s t : State} (h : step s = .next t) (hrb : t.rb ≠ s.rb) :
    s.st = .running ∧ ∃ a b c, decode (s.mem.read s.ip) = .ok (.arb a b c) := by
  obtain ⟨-, rfl⟩ | ⟨-, r, -, rfl⟩ | ⟨hs, i, hd, ⟨r, -, rfl⟩ | he⟩ := step_cases h
  · exact absurd rfl hrb
  · exact absurd rfl hrb
  · exact absurd rfl hrb
  · rw [eq_arb_of_opcode (effectOf_rb he hrb)] at hd
    exact ⟨hs, _, _, _, hd⟩

/-! ### The resumes, and SUPPLY out of turn -/

@[simp] theorem resumeInput_rb (v : Word) (s : State) : (resumeInput v s).rb = s.rb := by
  obtain ⟨d, -, h⟩ | ⟨-, h⟩ := resumeInput_cases v s <;> simp [h]

@[simp] theorem resumeOutput_rb (s : State) : (resumeOutput s).1.rb = s.rb := by
  obtain ⟨x, -, h⟩ | ⟨-, h⟩ := resumeOutput_cases s <;> simp [h]

@[simp] theorem supplyOutOfTurn_rb (s : State) : (supplyOutOfTurn s).rb = s.rb := by
  obtain h | ⟨-, -, h⟩ := supplyOutOfTurn_cases s <;> simp [h]

theorem resumeInput_setRb (v : Word) {s : State} (h : s.dir.mode1 ≠ .relative) (w : Word) :
    resumeInput v (s.setRb w) = (resumeInput v s).setRb w := by
  have hc : completeInput v (s.setRb w) = (·.setRb w) <$> completeInput v s := by
    simp only [completeInput, State.setRb_dir, writeParam_setRb h, nextIp_setRb, exceptMap_eq_map, map_bind,
      bind_map_left]
    rfl
  unfold resumeInput
  rw [hc]
  cases completeInput v s <;> rfl

theorem resumeOutput_setRb {s : State} (h : s.dir.mode1 ≠ .relative) (w : Word) :
    resumeOutput (s.setRb w) = ((resumeOutput s).1.setRb w, (resumeOutput s).2) := by
  have hc : completeOutput (s.setRb w) = (fun p => (p.1.setRb w, p.2)) <$> completeOutput s := by
    simp only [completeOutput, State.setRb_dir, readParam_setRb h, nextIp_setRb, map_bind]
    rfl
  unfold resumeOutput
  rw [hc]
  cases completeOutput s <;> rfl

theorem supplyOutOfTurn_setRb (s : State) (w : Word) : supplyOutOfTurn (s.setRb w) = (supplyOutOfTurn s).setRb w := by
  simp only [supplyOutOfTurn, State.setRb_params, State.setRb_st]
  split
  · rfl
  · by_cases hst : s.st = .running ∨ s.st = .hasOutput
    · simp only [hst, if_true]
      rfl
    · simp only [hst, if_false]

/-! ### The commands -/

/-- What a command answers when it does not run the engine (`perform_of_not_runsEngine`). -/
def answerWithoutEngine : Command → State → Host.Outcome (State × Reply) Fault Refusal
  | .run, s => .next (s, .done)
  | .supply _, s => .next (supplyOutOfTurn s, .done)
  | .consume, s => .next (s, .noValue)
  | .peek a, s => .next (s, .word (peek a s))
  | .poke a v, s => if a < s.params.memLimit then .next (s.store a v, .done) else .refused .pokeBeyondLimit
  | .state, s => .next (s, .execState s.st)
  | .duplicate, s => .next (s, .machine s)

theorem perform_of_not_runsEngine {c : Command} {s : State} (h : ¬ RunsEngine c s) (n : Nat) :
    perform n c s = answerWithoutEngine c s := by
  cases c with
  | run => exact runThen_not_running (fun hs => h (congrArg some hs.symm)) n .done
  | supply v =>
    simp only [perform, supply]
    split
    · exact absurd (congrArg some (Eq.symm ‹_›)) h
    all_goals rfl
  | consume =>
    simp only [perform, consume]
    split
    · exact absurd (congrArg some (Eq.symm ‹_›)) h
    all_goals rfl
  | poke a v => by_cases ha : a < s.params.memLimit <;> simp [perform, poke, answerWithoutEngine, ha]
  | peek a => rfl
  | state => rfl
  | duplicate => rfl

/-- A command that runs the engine runs it from a state that still has the base it was given. -/
theorem perform_of_runsEngine {c : Command} {s : State} (h : RunsEngine c s) :
    ∃ (u : State) (reply : Reply), u.rb = s.rb ∧ ∀ n, perform n c s = runThen n reply u := by
  cases c with
  | run => exact ⟨s, .done, rfl, fun n => rfl⟩
  | supply v =>
    have hs : s.st = .awaitingInput := (Option.some.inj h).symm
    exact ⟨resumeInput v s, .done, by simp, fun n => by simp only [perform, supply, hs]⟩
  | consume =>
    have hs : s.st = .hasOutput := (Option.some.inj h).symm
    exact ⟨(resumeOutput s).1, (resumeOutput s).2, by simp, fun n => by simp only [perform, consume, hs]⟩
  | peek a => cases h
  | poke a v => cases h
  | state => cases h
  | duplicate => cases h

theorem answerWithoutEngine_rb {c : Command} {s t : State} {r : Reply} (h : answerWithoutEngine c s = .next (t, r)) :
    t.rb = s.rb := by
  cases c with
  | supply v => cases h; exact supplyOutOfTurn_rb s
  | poke a v =>
    simp only [answerWithoutEngine] at h
    split at h
    · cases h; rfl
    · cases h
  | run => cases h; rfl
  | consume => cases h; rfl
  | peek a => cases h; rfl
  | state => cases h; rfl
  | duplicate => cases h; rfl

/-- DUPLICATE is left out: its reply holds the machine, base and all. -/
theorem answerWithoutEngine_setRb {c : Command} (hc : c ≠ .duplicate) {s t : State} {r : Reply} (w : Word)
    (h : answerWithoutEngine c s = .next (t, r)) : answerWithoutEngine c (s.setRb w) = .next (t.setRb w, r) := by
  cases c with
  | supply v =>
    cases h
    simp only [answerWithoutEngine, supplyOutOfTurn_setRb]
  | poke a v =>
    by_cases ha : a < s.params.memLimit
    · simp only [answerWithoutEngine, ha, if_true] at h
      cases h
      simp only [answerWithoutEngine, State.setRb_params, ha, if_true]
      rfl
    · simp [answerWithoutEngine, ha] at h
  | run => cases h; rfl
  | consume => cases h; rfl
  | peek a => cases h; rfl
  | state => cases h; rfl
  | duplicate => exact absurd rfl hc

theorem perform_not_runsEngine_rb {n : Nat} {c : Command} {s t : State} {r : Reply} (hc : ¬ RunsEngine c s)
    (h : perform n c s = .next (t, r)) : t.rb = s.rb :=
  answerWithoutEngine_rb ((perform_of_not_runsEngine hc n).symm.trans h)

theorem perform_zero_rb {c : Command} {s t : State} {r : Reply} (h : perform 0 c s = .next (t, r)) : t.rb = s.rb := by
  by_cases hc : RunsEngine c s
  · obtain ⟨u, reply, hu, hrun⟩ := perform_of_runsEngine hc
    rw [hrun] at h
    cases runThen_eq_next h
    exact hu
  · exact perform_not_runsEngine_rb hc h

/-- The engine step that a command with a budget one larger takes more. -/
theorem perform_succ {n : Nat} {c : Command} {s u t : State} {q r : Reply} (hn : perform n c s = .next (u, q))
    (hsucc : perform (n + 1) c s = .next (t, r)) : t = u ∨ step u = .next t := by
  by_cases hc : RunsEngine c s
  · obtain ⟨start, reply, -, hrun⟩ := perform_of_runsEngine hc
    rw [hrun] at hn hsucc
    exact .inr ((runLoop_succ n (runThen_eq_next hn)).symm.trans (runThen_eq_next hsucc))
  · rw [perform_of_not_runsEngine hc] at hn hsucc
    cases hn.symm.trans hsucc
    exact .inl rfl

theorem perform_succ_rb {n : Nat} {c : Command} {s u t : State} {q r : Reply} (hn : perform n c s = .next (u, q))
    (hsucc : perform (n + 1) c s = .next (t, r)) (hrb : t.rb ≠ u.rb) :
    u.st = .running ∧ ∃ a b d, decode (u.mem.read u.ip) = .ok (.arb a b d) := by
  obtain rfl | hstep := perform_succ hn hsucc
  · exact absurd rfl hrb
  · exact step_rb hstep hrb

theorem perform_setRb {n : Nat} {c : Command} {s t : State} {r : Reply} (w : Word) (hc : ¬ RunsEngine c s)
    (hdup : c ≠ .duplicate) (h : perform n c s = .next (t, r)) : perform n c (s.setRb w) = .next (t.setRb w, r) := by
  have hc' : ¬ RunsEngine c (s.setRb w) := hc
  rw [perform_of_not_runsEngine hc] at h
  rw [perform_of_not_runsEngine hc']
  exact answerWithoutEngine_setRb hdup w h

/-- Settles O32: ARB is the one effect that writes `rb`, a command writes it through its engine steps alone, and the
operand and destination of a mode other than Relative are the same on every base. -/
theorem onlyArbChangesRelativeBase : Obligations.OnlyArbChangesRelativeBase := by
  refine ⟨fun s t => step_rb, fun v s => ⟨resumeInput_rb v s, resumeOutput_rb s, supplyOutOfTurn_rb s⟩, ?poke,
    fun c s t r => perform_zero_rb, fun n c s u t q r => perform_succ_rb, fun n c s t r => perform_not_runsEngine_rb,
    ?load, ?duplicate, fun L s a h ha => eaRel_eq_ok.2 ⟨h, ha⟩, ?operands, fun i s w harb hrel => exec_setRb harb hrel s w,
    step_setRb, fun v s w h => ⟨resumeInput_setRb v h w, resumeOutput_setRb h w⟩,
    fun n c s t r w => perform_setRb w⟩
  case poke =>
    intro a v s t h
    obtain ⟨-, rfl⟩ := poke_eq_next.1 h
    rfl
  case load =>
    intro p latch image s h
    obtain ⟨-, rfl⟩ := load_eq_next.1 h
    rfl
  case duplicate =>
    intro n s u r h
    cases h
    exact ⟨rfl, s, rfl, rfl⟩
  case operands =>
    intro k s w
    exact ⟨readParam_setRb (by decide) k s w, readParam_setRb (by decide) k s w, destAddr_setRb (by decide) k s w,
      destAddr_setRb (by decide) k s w⟩

end Sys2Proof.Machine
end

section
/-! PROOFS of the family 30_encoding.md: the decoder, `read` and `write`, case by case. -/

namespace Sys2Proof

/-! ### The rejects of the decoder -/

theorem opcodeOfNumber_eq_none {n : Nat} : opcodeOfNumber n = none ↔ ∀ op : Opcode, op.number ≠ n := by
  simp only [Option.eq_none_iff_forall_ne_some, ne_eq, opcodeOfNumber_eq_some, eq_comm (a := n)]

/-- The three mode digits are checked whatever the opcode (30_encoding.md R63, R64). -/
theorem decodeModes_eq_mode_error {op : Opcode} {w : Nat} (h : 2 < digit w 2 ∨ 2 < digit w 3 ∨ 2 < digit w 4) :
    decodeModes op w = .error .mode := by
  simp only [← modeOfDigit_eq_none] at h
  unfold decodeModes
  split
  case h_1 => rfl
  split
  case h_1 => rfl
  split
  case h_1 => rfl
  case h_2 h2 _ _ h3 _ _ h4 => simp [h2, h3, h4] at h

theorem decode_of_neg {W : Word} (h : W.toInt < 0) : decode W = .error .negWord := if_pos h

theorem decode_of_undefined_opcode {W : Word} (h0 : 0 ≤ W.toInt) (h : ∀ op : Opcode, op.number ≠ W.toNat % 100) :
    decode W = .error .opcode := by
  rw [decode, if_neg (not_lt.2 h0), opcodeOfNumber_eq_none.2 h]

theorem decode_of_opcode {W : Word} {op : Opcode} (h0 : 0 ≤ W.toInt) (h : op.number = W.toNat % 100) :
    decode W = decodeModes op W.toNat := by
  rw [decode, if_neg (not_lt.2 h0), opcodeOfNumber_eq_some.2 h.symm]

theorem dirOf_instr (op : Opcode) (a b c : Mode) :
    Machine.dirOf (op.instr a b c) = { op := op, mode1 := a, mode2 := b, mode3 := c } := by
  simp [Machine.dirOf]

end Sys2Proof

namespace Sys2Proof.Machine

/-- Settles O3: the decoder's checks in the order of the pseudocode, then the step of a Running machine on either
outcome. -/
theorem decodeFollowsDecimalDigits : Obligations.DecodeFollowsDecimalDigits := by
  intro W
  refine ⟨decode_of_neg, decode_of_undefined_opcode, ?badMode, ?accepted, ?rejected⟩
  case badMode =>
    rintro h0 ⟨op, hop⟩ hd
    rw [decode_of_opcode h0 hop]
    exact decodeModes_eq_mode_error hd
  case accepted =>
    intro op a b c h0 hop ha hb hc
    have hd : decode W = .ok (op.instr a b c) :=
      decode_eq_ok.2 ⟨h0, op, a, b, c, hop.symm, rfl, ha.symm, hb.symm, hc.symm⟩
    refine ⟨hd, fun s hs hW => ?_⟩
    rw [step_running_ok hs (hW ▸ hd), latch, dirOf_instr]
    rfl
  case rejected =>
    intro r s hd hs hW
    exact step_running_error hs (hW ▸ hd)

/-! ### The address a slot names -/

theorem eaPos_of_neg {L : Word} (h : L.toInt < 0) : eaPos L = .error .negAddr := if_pos h

theorem eaPos_of_nonneg {L : Word} (h : 0 ≤ L.toInt) : eaPos L = .ok L.toNat := eaPos_eq_ok.2 ⟨h, rfl⟩

theorem destAddr_position {k : Nat} {s : State} {L : Word} (h : fetchParam k s = .ok L) :
    destAddr .position k s = eaPos L := by
  rw [destAddr, h, ok_bind]

theorem destAddr_relative {k : Nat} {s : State} {L : Word} (h : fetchParam k s = .ok L) :
    destAddr .relative k s = eaRel L s := by
  rw [destAddr, h, ok_bind]

/-- Immediate is left out: there `write` faults before the fetch (30_encoding.md R73). -/
theorem destAddr_of_fetch_error {mode : Mode} (hm : mode ≠ .immediate) {k : Nat} {s : State} {r : Fault}
    (h : fetchParam k s = .error r) : destAddr mode k s = .error r := by
  cases mode with
  | position => rw [destAddr, h, error_bind]
  | immediate => exact absurd rfl hm
  | relative => rw [destAddr, h, error_bind]

/-! ### `read` and `write` at that address -/

/-- Outside Immediate mode `read` takes its word from the address that `write` stores to. -/
theorem readParam_eq_read_destAddr {mode : Mode} (hm : mode ≠ .immediate) (k : Nat) (s : State) :
    readParam mode k s = destAddr mode k s >>= fun a => .ok (s.mem.read a) := by
  cases mode with
  | position => simp only [readParam, destAddr, bind_assoc, memRead]
  | immediate => exact absurd rfl hm
  | relative => simp only [readParam, destAddr, bind_assoc, memRead]

theorem readParam_of_destAddr_ok {mode : Mode} {k a : Nat} {s : State} (h : destAddr mode k s = .ok a) :
    readParam mode k s = .ok (s.mem.read a) := by
  have hm : mode ≠ .immediate := by rintro rfl; cases h
  rw [readParam_eq_read_destAddr hm, h, ok_bind]

theorem readParam_of_destAddr_error {mode : Mode} (hm : mode ≠ .immediate) {k : Nat} {s : State} {r : Fault}
    (h : destAddr mode k s = .error r) : readParam mode k s = .error r := by
  rw [readParam_eq_read_destAddr hm, h, error_bind]

theorem readParam_of_fetch_error {mode : Mode} {k : Nat} {s : State} {r : Fault} (h : fetchParam k s = .error r) :
    readParam mode k s = .error r := by
  by_cases hm : mode = .immediate
  · subst hm
    exact h
  · exact readParam_of_destAddr_error hm (destAddr_of_fetch_error hm h)

theorem writeParam_of_destAddr_ok {mode : Mode} {k a : Nat} {s : State} (v : Word) (h : destAddr mode k s = .ok a) :
    writeParam mode k v s = memWrite a v s := by
  rw [writeParam, h, ok_bind]

theorem writeParam_of_destAddr_error {mode : Mode} {k : Nat} {s : State} {r : Fault} (v : Word)
    (h : destAddr mode k s = .error r) : writeParam mode k v s = .error r := by
  rw [writeParam, h, error_bind]

/-- Settles O12: outside Immediate mode by the address the slot names. -/
theorem readResolvesByMode : Obligations.ReadResolvesByMode := by
  refine fun k s => ⟨fun mode r => readParam_of_fetch_error,
    fun L hL => ⟨fun h => ?_, fun h => ?_, hL, fun r h => ?_, fun a h => ?_⟩⟩
  · exact readParam_of_destAddr_error (by decide) ((destAddr_position hL).trans (eaPos_of_neg h))
  · exact readParam_of_destAddr_ok ((destAddr_position hL).trans (eaPos_of_nonneg h))
  · exact readParam_of_destAddr_error (by decide) ((destAddr_relative hL).trans h)
  · exact readParam_of_destAddr_ok ((destAddr_relative hL).trans h)

/-- Settles O13: Immediate faults before the fetch, and otherwise the address is resolved before the one `MemWrite`. -/
theorem writeResolvesByMode : Obligations.WriteResolvesByMode := by
  refine fun k v s => ⟨rfl, fun r h => ⟨?_, ?_⟩,
    fun L hL => ⟨fun h => ?_, fun h => ?_, fun r h => ?_, fun a h => ?_⟩⟩
  · exact writeParam_of_destAddr_error v (destAddr_of_fetch_error (by decide) h)
  · exact writeParam_of_destAddr_error v (destAddr_of_fetch_error (by decide) h)
  · exact writeParam_of_destAddr_error v ((destAddr_position hL).trans (eaPos_of_neg h))
  · exact writeParam_of_destAddr_ok v ((destAddr_position hL).trans (eaPos_of_nonneg h))
  · exact writeParam_of_destAddr_error v ((destAddr_relative hL).trans h)
  · exact writeParam_of_destAddr_ok v ((destAddr_relative hL).trans h)

end Sys2Proof.Machine
end

section
/-! PROOFS of the family 40_engine.md: what a host command leaves as it was (40_engine.md R96, R102). -/

namespace Sys2Proof.Machine

/-- A command to machine `i` writes place `i` of the list, and a machine it makes stands behind all the others. -/
theorem World.command_on_machines_ne {n i j : Nat} {c : Command} {w w' : World} {r : Reply} (hij : i ≠ j)
    (hj : j < w.machines.length) (h : World.command n (.on i c) w = .next (w', r)) :
    w'.machines[j]? = w.machines[j]? := by
  obtain ⟨s, t, -, -, rfl⟩ := World.command_on_eq_next.1 h
  have hj' : j < (w.machines.set i t).length := by rwa [List.length_set]
  calc (w.machines.set i t ++ r.newMachines)[j]?
    _ = (w.machines.set i t)[j]? := List.getElem?_append_left hj'
    _ = w.machines[j]? := List.getElem?_set_ne hij

/-- The loaded machine stands behind all the others. -/
theorem World.command_load_machines {n j : Nat} {p : Params} {latch : Dir} {image : List Word} {w w' : World}
    {r : Reply} (hj : j < w.machines.length) (h : World.command n (.load p latch image) w = .next (w', r)) :
    w'.machines[j]? = w.machines[j]? := by
  obtain ⟨s, -, rfl, -⟩ := World.command_load_eq_next.1 h
  exact List.getElem?_append_left hj

/-- Settles O55: a command to machine `i` writes at place `i` alone, and both kinds of command add only at the end. -/
theorem commandsTouchOneMachine : Obligations.CommandsTouchOneMachine :=
  ⟨fun _ _ _ _ _ _ _ => World.command_on_machines_ne, fun _ _ _ _ _ _ _ _ => World.command_load_machines⟩

/-- Settles O52: the answer of `perform` to STATE does not ask what the state is or use the budget. -/
theorem stateReportsExecState : Obligations.StateReportsExecState := fun _ _ => rfl

end Sys2Proof.Machine
end

section
/-! PROOFS of the family 41_arithmetic.md: the encoding of an instruction, the two ends of a three-parameter
instruction, and ADD (41_arithmetic.md R121). -/

namespace Sys2Proof

/-! ### The canonical word -/

/-- The canonical word is far below `2^63`, so it is not negative. -/
theorem encode_toInt_nonneg (i : Instr) : 0 ≤ (encode i).toInt := by
  have hlt : encodeNat i < 100000 := (Laws.canonicalWord_of i).1
  rw [BitVec.toInt_eq_toNat_of_lt (by rw [encode_toNat]; omega)]
  exact Int.natCast_nonneg _

/-- The mode digits stand at the places the decoder reads (30_encoding.md R82, R63). -/
theorem digits_encodeNat (i : Instr) :
    digit (encodeNat i) 2 = i.mode1.digit ∧ digit (encodeNat i) 3 = i.mode2.digit ∧
      digit (encodeNat i) 4 = i.mode3.digit := by
  have hop := i.opcode.number_lt
  have h1 := i.mode1.digit_lt
  have h2 := i.mode2.digit_lt
  have h3 := i.mode3.digit_lt
  simp only [digit, encodeNat]
  omega

theorem decode_encode (i : Instr) : decode (encode i) = .ok i := by
  have hdigits := digits_encodeNat i
  have hop : encodeNat i % 100 = i.opcode.number := (Laws.canonicalWord_of i).2
  rw [← encode_toNat] at hdigits hop
  exact decode_eq_ok.2 ⟨encode_toInt_nonneg i, i.opcode, i.mode1, i.mode2, i.mode3, hop, i.eta.symm, hdigits⟩

end Sys2Proof

namespace Sys2Proof.Machine

theorem encodesAs (i : Instr) : EncodesAs i i.opcode.number i.opcode.length i.mode1 i.mode2 i.mode3 :=
  ⟨encode_toNat i, decode_encode i, rfl⟩

/-! ### The two ends of a three-parameter instruction -/

section
variable {f : Word → Word → Except Fault Word} {a b c : Mode} {s : State}

/-- The result is stored and `ip` advances by 4. -/
theorem commit_threeParam_of_ready {x y r : Word} {d : Nat} (h : ThreeParamReady a b c s x y d) (hr : f x y = .ok r) :
    commit s (threeParam f a b c s) =
      .next { s with mem := s.mem.write d r, len := max s.len (d + 1), ip := s.ip + 4 } := by
  obtain ⟨hx, hy, hip, hd, hl⟩ := h
  rw [threeParam_eq_ok.2 ⟨x, y, r, d, hx, hy, hr, hip, hd, hl, rfl⟩]
  rfl

/-- If a slot, the advance or the computation fails, the instruction is abandoned and only `st` changes. -/
theorem commit_threeParam_of_not_ready (h : ∀ x y r d, ThreeParamReady a b c s x y d → f x y ≠ .ok r) :
    commit s (threeParam f a b c s) = .next { s with st := .faulted } := by
  have hnot : ∀ t, threeParam f a b c s ≠ .ok t := by
    intro t ht
    obtain ⟨x, y, r, d, hx, hy, hr, hip, hd, hl, -⟩ := threeParam_eq_ok.1 ht
    exact h x y r d ⟨hx, hy, hip, hd, hl⟩ hr
  obtain ⟨r, hr⟩ := exists_error_of_not_ok hnot
  rw [hr]
  rfl

end

/-! ### ADD -/

/-- Settles O17: the exact sum narrows to a word precisely when it fits, and that decides between the two ends. -/
theorem addStoresExactSum : Obligations.AddStoresExactSum := by
  refine fun a b c s => ⟨fun x y d hready hfits => ?stored, fun hnot => ?faulted, encodesAs (.add a b c)⟩
  case stored =>
    refine ⟨BitVec.ofInt 64 (x.toInt + y.toInt), toInt_ofInt_of_fits hfits, ?_⟩
    rw [exec_eq_commit]
    exact commit_threeParam_of_ready hready (narrow_eq_ok.2 ⟨hfits, rfl⟩)
  case faulted =>
    rw [exec_eq_commit]
    exact commit_threeParam_of_not_ready fun x y r d hready hr => hnot ⟨x, y, d, hready, (narrow_eq_ok.1 hr).1⟩

end Sys2Proof.Machine
end

section
/-! PROOFS of the family 43_jumps.md: what a jump does on each outcome of its condition, then JT and JF
(43_jumps.md R140, R141). -/

namespace Sys2Proof.Machine

open Sys2Proof.Config

/-! ### The conditions -/

theorem isNonzero_eq_true {x : Word} : isNonzero x = true ↔ x.toInt ≠ 0 := decide_eq_true_iff

theorem isNonzero_eq_false {x : Word} : isNonzero x = false ↔ x.toInt = 0 := decide_eq_false_iff_not.trans not_not

theorem isZero_eq_true {x : Word} : isZero x = true ↔ x.toInt = 0 := decide_eq_true_iff

theorem isZero_eq_false {x : Word} : isZero x = false ↔ x.toInt ≠ 0 := decide_eq_false_iff_not

/-! ### A jump on each outcome of its condition -/

section
variable {taken : Word → Bool} {a b : Mode} {s : State} {x : Word}

theorem commit_jumpWhen_of_condition_error {r : Fault} (h : readParam a 1 s = .error r) :
    commit s (jumpWhen taken a b s) = .next { s with st := .faulted } := by
  rw [jumpWhen, h, error_bind]
  rfl

/-- A jump that is taken goes to `read(2)`, and is abandoned if that faults or is negative. -/
theorem commit_jumpWhen_of_taken (hx : readParam a 1 s = .ok x) (htaken : taken x = true) :
    (∀ r, readParam b 2 s = .error r → commit s (jumpWhen taken a b s) = .next { s with st := .faulted }) ∧
    ∀ t : Word, readParam b 2 s = .ok t →
      (t.toInt < 0 → commit s (jumpWhen taken a b s) = .next { s with st := .faulted }) ∧
      (0 ≤ t.toInt → commit s (jumpWhen taken a b s) = .next { s with ip := t.toNat }) := by
  refine ⟨fun r hr => ?targetError, fun t ht => ⟨fun hneg => ?negative, fun hnonneg => ?jumps⟩⟩
  case targetError =>
    rw [jumpWhen, hx, ok_bind, if_pos htaken, hr, error_bind]
    rfl
  case negative =>
    rw [jumpWhen, hx, ok_bind, if_pos htaken, ht, ok_bind, if_pos hneg]
    rfl
  case jumps =>
    rw [jumpWhen_eq_ok.2 ⟨x, hx, .inl ⟨htaken, t, ht, hnonneg, rfl⟩⟩]
    rfl

/-- A jump that is not taken advances by 3 whatever slot 2 holds, and is abandoned if that leaves the address
space. -/
theorem commit_jumpWhen_of_not_taken (hx : readParam a 1 s = .ok x) (htaken : taken x = false) :
    (s.ip + 3 ≤ addrMax → commit s (jumpWhen taken a b s) = .next { s with ip := s.ip + 3 }) ∧
    (addrMax < s.ip + 3 → commit s (jumpWhen taken a b s) = .next { s with st := .faulted }) := by
  refine ⟨fun hip => ?advances, fun hip => ?addrSpace⟩
  case advances =>
    rw [jumpWhen_eq_ok.2 ⟨x, hx, .inr ⟨htaken, hip, rfl⟩⟩]
    rfl
  case addrSpace =>
    rw [jumpWhen, hx, ok_bind, if_neg (Bool.eq_false_iff.1 htaken), nextIp, if_pos hip, error_bind]
    rfl

end

/-! ### JT and JF -/

/-- Settles O21: JT is the jump taken when the condition is not 0. -/
theorem jtJumpsWhenNonzero : Obligations.JtJumpsWhenNonzero := by
  intro a b c s
  simp only [exec_eq_commit]
  exact ⟨fun r => commit_jumpWhen_of_condition_error,
    fun x hx => ⟨fun h => commit_jumpWhen_of_taken hx (isNonzero_eq_true.2 h),
      fun h => commit_jumpWhen_of_not_taken hx (isNonzero_eq_false.2 h)⟩,
    encodesAs (.jt a b c)⟩

/-- Settles O22: JF is the jump taken when the condition is 0. -/
theorem jfJumpsWhenZero : Obligations.JfJumpsWhenZero := by
  intro a b c s
  simp only [exec_eq_commit]
  exact ⟨fun r => commit_jumpWhen_of_condition_error,
    fun x hx => ⟨fun h => commit_jumpWhen_of_taken hx (isZero_eq_true.2 h),
      fun h => commit_jumpWhen_of_not_taken hx (isZero_eq_false.2 h)⟩,
    encodesAs (.jf a b c)⟩

end Sys2Proof.Machine
end

section
/-! PROOFS of the family 44_compare.md: the words the two comparisons give, what a three-parameter instruction does
whose result is always a word, then LT and EQ (44_compare.md R150, R151). -/

namespace Sys2Proof.Machine

/-! ### The words of the comparisons -/

theorem boolWord_decide (p : Prop) [Decidable p] : boolWord (decide p) = if p then 1 else 0 := by
  simp only [boolWord, decide_eq_true_eq]

theorem lessThan_eq_ite (x y : Word) : lessThan x y = if x.toInt < y.toInt then 1 else 0 := boolWord_decide _

/-- Equal values are equal words, so EQ compares the full 64 bits. -/
theorem equals_eq_ite (x y : Word) : equals x y = if x = y then 1 else 0 := by
  rw [equals, boolWord_decide]
  simp only [BitVec.toInt_inj]

/-! ### A three-parameter instruction whose computation cannot fail -/

/-- With no fault of its own, it is abandoned only if a slot or the advance fails. -/
theorem commit_threeParam_ok (g : Word → Word → Word) (a b c : Mode) (s : State) :
    (∀ x y d, ThreeParamReady a b c s x y d →
      commit s (threeParam (fun x y => .ok (g x y)) a b c s) =
        .next { s with mem := s.mem.write d (g x y), len := max s.len (d + 1), ip := s.ip + 4 }) ∧
    ((¬ ∃ x y d, ThreeParamReady a b c s x y d) →
      commit s (threeParam (fun x y => .ok (g x y)) a b c s) = .next { s with st := .faulted }) :=
  ⟨fun _ _ _ hready => commit_threeParam_of_ready hready rfl,
    fun hnot => commit_threeParam_of_not_ready fun x y _ d hready _ => hnot ⟨x, y, d, hready⟩⟩

/-! ### LT and EQ -/

/-- Settles O19: LT is that instruction with the signed comparison as its computation. -/
theorem ltStoresSignedComparison : Obligations.LtStoresSignedComparison := by
  intro a b c s
  obtain ⟨hstored, hfaulted⟩ := commit_threeParam_ok lessThan a b c s
  rw [exec_eq_commit]
  refine ⟨fun x y d hready => ?_, hfaulted, encodesAs (.lt a b c)⟩
  rw [← lessThan_eq_ite]
  exact hstored x y d hready

/-- Settles O20: EQ is that instruction with the equality of full words as its computation. -/
theorem eqStoresEquality : Obligations.EqStoresEquality := by
  intro a b c s
  obtain ⟨hstored, hfaulted⟩ := commit_threeParam_ok equals a b c s
  rw [exec_eq_commit]
  refine ⟨fun x y d hready => ?_, hfaulted, encodesAs (.eq a b c)⟩
  rw [← equals_eq_ite]
  exact hstored x y d hready

end Sys2Proof.Machine
end

section
/-! PROOFS of the family 70_reset_and_hazards.md: the contents of a loaded Memory, then LOAD
(70_reset_and_hazards.md R190, R191). -/

namespace Sys2Proof.Machine

/-! ### The Memory of an image -/

section
variable {image : List Word} {a : Nat}

theorem read_image (image : List Word) (a : Nat) :
    Memory.read { cells := imageCells 0 image } a = image[a]?.getD 0 := by
  rw [← lookup_imageCells image 0 a, Nat.zero_add, Memory.read]

theorem read_image_of_lt (h : a < image.length) : Memory.read { cells := imageCells 0 image } a = image[a] := by
  rw [read_image, List.getElem?_eq_getElem h, Option.getD_some]

theorem read_image_of_le (h : image.length ≤ a) : Memory.read { cells := imageCells 0 image } a = 0 := by
  rw [read_image, List.getElem?_eq_none h, Option.getD_none]

end

/-! ### LOAD -/

/-- Settles O40: LOAD of an image that fits makes the machine `load_eq_next` names, and its Memory reads as the image
inside it and as 0 past its end. -/
theorem loadSetsEveryState : Obligations.LoadSetsEveryState := by
  intro p latch image hfits
  exact ⟨_, load_eq_next.2 ⟨hfits, rfl⟩, fun _ => read_image_of_lt, fun _ => read_image_of_le, rfl, rfl, rfl, rfl⟩

end Sys2Proof.Machine
end

section
/-! PROOFS of the encoding: the decoder looks at the five low decimal digits of a non-negative word
(30_encoding.md R65, R77), and the opcode fixes the length (R61). -/

namespace Sys2Proof

/-! ### The five low digits -/

theorem mode_digits_congr {v w : Nat} (h : v % 100000 = w % 100000) :
    digit v 2 = digit w 2 ∧ digit v 3 = digit w 3 ∧ digit v 4 = digit w 4 := by
  simp only [digit]
  omega

theorem decodeModes_congr (op : Opcode) {v w : Nat} (h : v % 100000 = w % 100000) :
    decodeModes op v = decodeModes op w := by
  obtain ⟨h2, h3, h4⟩ := mode_digits_congr h
  simp only [decodeModes, h2, h3, h4]

theorem decode_congr {V W : Word} (hV : 0 ≤ V.toInt) (hW : 0 ≤ W.toInt)
    (h : V.toNat % 100000 = W.toNat % 100000) : decode V = decode W := by
  have hop : V.toNat % 100 = W.toNat % 100 := by omega
  simp only [decode, if_neg (not_lt.2 hV), if_neg (not_lt.2 hW), hop, decodeModes_congr _ h]

/-- What the decoder accepts as `i` ends in the digits of the canonical word of `i`. -/
theorem mod_eq_encodeNat_of_decode {W : Word} {i : Instr} (h : decode W = .ok i) :
    W.toNat % 100000 = encodeNat i := by
  obtain ⟨-, op, a, b, c, hop, rfl, h1, h2, h3⟩ := decode_eq_ok.1 h
  simp only [digit] at h1 h2 h3
  simp only [encodeNat, Opcode.instr_opcode, Opcode.instr_mode1, Opcode.instr_mode2, Opcode.instr_mode3]
  omega

/-! ### The opcodes -/

theorem Opcode.number_mem (op : Opcode) : op.number ∈ [1, 2, 3, 4, 5, 6, 7, 8, 9, 99] := by
  cases op <;> decide

/-- One word for the opcode and one for each literal (30_encoding.md R61). -/
theorem Opcode.length_eq (op : Opcode) : op.length = op.paramCount + 1 := by cases op <;> rfl

theorem Opcode.paramCount_le (op : Opcode) : op.paramCount ≤ 3 := by cases op <;> decide

theorem length_assemble (i : Instr) (l1 l2 l3 : Word) : (assemble i l1 l2 l3).length = i.opcode.length := by
  have hle := i.opcode.paramCount_le
  rw [assemble, Opcode.length_eq, List.length_cons, List.length_take, List.length_cons, List.length_cons,
    List.length_singleton]
  omega

/-- The literals of the used slots follow the instruction word in slot order (30_encoding.md R82). -/
theorem getElem?_assemble_succ {i : Instr} {k : Nat} (hk : k < i.opcode.paramCount) (l1 l2 l3 : Word)
    (rest : List Word) : (assemble i l1 l2 l3 ++ rest)[k + 1]? = [l1, l2, l3][k]? := by
  have hle := i.opcode.paramCount_le
  have hlen : k < ([l1, l2, l3].take i.opcode.paramCount).length := by
    rw [List.length_take, List.length_cons, List.length_cons, List.length_singleton]
    omega
  rw [assemble, List.cons_append, List.getElem?_cons_succ, List.getElem?_append_left hlen, List.getElem?_take_of_lt hk]

end Sys2Proof

namespace Sys2Proof.Machine

/-- Settles O1: the canonical word fits in 64 bits and has the digits the decoder reads. -/
theorem encodeThenDecodeIsIdentity : Obligations.EncodeThenDecodeIsIdentity :=
  fun i => ⟨encode_toNat i, decode_encode i⟩

/-- Settles O4: the opcode and the three modes stand in the five low digits. -/
theorem highDigitsAreIgnored : Obligations.HighDigitsAreIgnored := fun _ _ => decode_congr

/-- Settles O2: a word with the digits of the canonical word decodes as that word does, and no other word decodes to
the instruction. -/
theorem decodeAcceptsExactlyCongruentWords : Obligations.DecodeAcceptsExactlyCongruentWords := by
  intro W i
  constructor
  · intro h
    rw [encode_toNat]
    exact ⟨(decode_eq_ok.1 h).1, mod_eq_encodeNat_of_decode h⟩
  · rintro ⟨h0, hmod⟩
    have hcanonical : (encode i).toNat % 100000 = (encode i).toNat := by
      rw [encode_toNat]
      exact Nat.mod_eq_of_lt (Laws.canonicalWord_of i).1
    rw [decode_congr h0 (encode_toInt_nonneg i) (hmod.trans hcanonical.symm), decode_encode]

/-- Settles O5, by running the decoder on each word. -/
theorem sampleWordsDecode : Obligations.SampleWordsDecode := by
  unfold Obligations.SampleWordsDecode
  decide

/-- Settles O6: the table opcode by opcode, then the length of the assembled words. -/
theorem opcodeFixesLength : Obligations.OpcodeFixesLength := by
  refine ⟨fun op => ?table, length_assemble⟩
  case table => cases op <;> decide

end Sys2Proof.Machine
end

section
/-! PROOFS about Memory, the parameter fetch and the exact arithmetic (20_memory.md R42, R43; 30_encoding.md R70, R74;
41_arithmetic.md R120). -/

namespace Sys2Proof.Machine

open Sys2Proof.Config

/-! ### Cells past the length -/

/-- No cell at or past the length is listed, so it reads 0. -/
theorem read_eq_zero_of_len_le {s : State} {a : Nat} (hs : s.Inv) (ha : s.len ≤ a) : s.mem.read a = 0 := by
  obtain ⟨-, hcells, -⟩ := hs
  refine lookup_eq_zero fun x hx hxa => ?_
  have hlt : x.1 < s.len := hcells x hx
  omega

/-- Settles O15: PEEK reads the same cell, or gives 0 above `ADDR_MAX`. -/
theorem readPastLengthIsZero : Obligations.ReadPastLengthIsZero := by
  intro s a hs ha
  have hzero : memRead a s = 0 := read_eq_zero_of_len_le hs ha
  exact ⟨hzero, by rw [peek, hzero, ite_self]⟩

/-- Settles O10, by `fetchParam_eq_ok`; a parameter word past the length is a cell past the length. -/
theorem parameterFetchReadsNextWords : Obligations.ParameterFetchReadsNextWords := by
  refine fun k s => ⟨fun h => fetchParam_eq_ok.2 ⟨h, rfl⟩, fun h => if_pos h, fun hs hlen h => ?pastLength⟩
  case pastLength => exact fetchParam_eq_ok.2 ⟨h, (read_eq_zero_of_len_le hs hlen).symm⟩

/-- Settles O11: the two bounds of the address space are checked one after the other. -/
theorem relativeAddressIsExactSum : Obligations.RelativeAddressIsExactSum := by
  refine fun L s => ⟨fun h => if_pos h, fun h => ?above, fun a ha hle => eaRel_eq_ok.2 ⟨ha, hle⟩⟩
  case above => rw [eaRel, if_neg (by omega), if_pos h]

/-! ### One stored word -/

/-- What a store changes, and what it leaves unchanged (20_memory.md R43). -/
theorem store_frame {s : State} (hs : s.mem.wf) (a : Nat) (v : Word) :
    (s.store a v).mem.read a = v ∧ (∀ b, b ≠ a → (s.store a v).mem.read b = s.mem.read b) ∧ (s.store a v).mem.wf ∧
      (s.store a v).len = max s.len (a + 1) ∧ (s.store a v).ip = s.ip ∧ (s.store a v).rb = s.rb ∧
      (s.store a v).st = s.st ∧ (s.store a v).dir = s.dir ∧ (s.store a v).params = s.params :=
  ⟨Memory.read_write_same hs a v, fun _ hb => Memory.read_write_ne s.mem hb v, Memory.write_wf hs a v, rfl, rfl, rfl,
    rfl, rfl, rfl⟩

/-- Settles O14: below `MEM_LIMIT` the write is one store. -/
theorem memWriteStoresOneWord : Obligations.MemWriteStoresOneWord :=
  fun a v _ hs => ⟨fun h => if_pos h, fun h => ⟨_, memWrite_eq_ok.2 ⟨h, rfl⟩, store_frame hs a v⟩⟩

/-! ### The exact result -/

theorem narrow_eq_ok_iff_toInt {v : Int} {w : Word} : narrow v = .ok w ↔ w.toInt = v := by
  rw [narrow_eq_ok]
  constructor
  · rintro ⟨hfits, rfl⟩
    exact toInt_ofInt_of_fits hfits
  · rintro rfl
    exact ⟨fits_toInt w, (BitVec.ofInt_toInt).symm⟩

/-- Settles O16: the integers that fit are the values of the words. -/
theorem arithmeticNeverTruncates : Obligations.ArithmeticNeverTruncates := by
  refine fun v => ⟨fun w => narrow_eq_ok_iff_toInt, fun hno => if_neg fun hfits => hno ?_⟩
  exact ⟨BitVec.ofInt 64 v, toInt_ofInt_of_fits hfits⟩

end Sys2Proof.Machine
end

section
/-! PROOFS about the instructions and the step: MUL, ARB, HLT, the engine steps of IN and OUT, and the frames
(40_engine.md R106, R107; 41_arithmetic.md R122; 45_base_halt.md; 42_io.md R130, R132). -/

namespace Sys2Proof.Machine

open Sys2Proof.Config

/-! ### The step -/

/-- Settles O7, by `step_running_ok`. -/
theorem stepRunsDecodedInstruction : Obligations.StepRunsDecodedInstruction := fun _ _ => step_running_ok

/-- Settles O8: each of the three kinds of word is rejected by the decoder. -/
theorem illegalOpcodeFaultsAtDecode : Obligations.IllegalOpcodeFaultsAtDecode := by
  rintro s hs hword
  obtain ⟨r, hr⟩ : ∃ r, decode (s.mem.read s.ip) = .error r := by
    by_cases hneg : (s.mem.read s.ip).toInt < 0
    · exact ⟨_, decode_of_neg hneg⟩
    obtain hneg' | hop | hzero := hword
    · exact absurd hneg' hneg
    · exact ⟨_, decode_of_undefined_opcode (not_lt.1 hneg) fun op e => hop (e ▸ op.number_mem)⟩
    · exact ⟨.opcode, by rw [hzero]; decide⟩
  exact step_running_error hs hr

theorem exec_next (i : Instr) (s : State) : ∃ t, exec i s = .next t := by
  rw [exec_eq_commit]
  exact commit_next s _

theorem step_next (s : State) : ∃ t, step s = .next t := by
  by_cases hs : s.st = .running
  · rcases hd : decode (s.mem.read s.ip) with r | i
    · exact ⟨_, step_running_error hs hd⟩
    · rw [step_running_ok hs hd]
      exact exec_next i _
  · exact ⟨s, step_not_running hs⟩

/-- Settles O9: an instruction commits its effect or enters Faulted, and a decode fault enters Faulted. -/
theorem everyStepAnswersNext : Obligations.EveryStepAnswersNext := ⟨exec_next, step_next⟩

/-! ### MUL, ARB, HLT, IN and OUT -/

/-- Settles O18: as for ADD, the exact product narrows to a word precisely when it fits. -/
theorem mulStoresExactProduct : Obligations.MulStoresExactProduct := by
  refine fun a b c s => ⟨fun x y d hready hfits => ?stored, fun hnot => ?faulted, encodesAs (.mul a b c)⟩
  case stored =>
    refine ⟨BitVec.ofInt 64 (x.toInt * y.toInt), toInt_ofInt_of_fits hfits, ?_⟩
    rw [exec_eq_commit]
    exact commit_threeParam_of_ready hready (narrow_eq_ok.2 ⟨hfits, rfl⟩)
  case faulted =>
    rw [exec_eq_commit]
    exact commit_threeParam_of_not_ready fun x y r d hready hr => hnot ⟨x, y, d, hready, (narrow_eq_ok.1 hr).1⟩

/-- Settles O23: `adjustBase_eq_ok` says when the base is adjusted and to what; otherwise the instruction is
abandoned. -/
theorem arbAddsToRelativeBase : Obligations.ArbAddsToRelativeBase := by
  refine fun a b c s => ⟨fun x hx hfits hip => ?adjusted, fun hnot => ?faulted, encodesAs (.arb a b c)⟩
  case adjusted =>
    refine ⟨BitVec.ofInt 64 (s.rb.toInt + x.toInt), toInt_ofInt_of_fits hfits, ?_⟩
    rw [exec_eq_commit, effectOf, adjustBase_eq_ok.2 ⟨x, hx, hfits, hip, rfl⟩]
    rfl
  case faulted =>
    have hnone : ∀ t, adjustBase a s ≠ .ok t := by
      intro t ht
      obtain ⟨x, hx, hfits, hip, -⟩ := adjustBase_eq_ok.1 ht
      exact hnot ⟨x, hx, hfits, hip⟩
    obtain ⟨r, hr⟩ := exists_error_of_not_ok hnone
    rw [exec_eq_commit, effectOf, hr]
    rfl

/-- Settles O24, by HLT's meaning and the encoding of every instruction. -/
theorem hltHaltsInPlace : Obligations.HltHaltsInPlace := fun a b c _ => ⟨rfl, encodesAs (.hlt a b c)⟩

/-- Settles O25, by the meanings of IN and OUT and the encoding of every instruction. -/
theorem inAndOutStepsOnlySuspend : Obligations.InAndOutStepsOnlySuspend :=
  fun a b c _ => ⟨rfl, rfl, encodesAs (.inp a b c), encodesAs (.out a b c)⟩

/-- Settles O28: the meanings of the six instructions do not take the modes of their unused slots. -/
theorem unusedModesHaveNoEffect : Obligations.UnusedModesHaveNoEffect :=
  fun _ _ _ _ _ _ _ => ⟨rfl, rfl, rfl, rfl, rfl, rfl⟩

/-! ### The frames -/

section
variable {s t : State}

theorem commit_threeParam_cases {f : Word → Word → Except Fault Word} {a b c : Mode}
    (h : commit s (threeParam f a b c s) = .next t) :
    (∃ d r, destAddr c 3 s = .ok d ∧ t = (s.store d r).setIp (s.ip + 4)) ∨ t = s.setSt .faulted := by
  obtain h | ⟨r, -, rfl⟩ := commit_cases h
  · obtain ⟨x, y, r, d, -, -, -, -, hd, -, rfl⟩ := threeParam_eq_ok.1 h
    exact .inl ⟨d, r, hd, rfl⟩
  · exact .inr rfl

theorem commit_jumpWhen_cases {taken : Word → Bool} {a b : Mode} (h : commit s (jumpWhen taken a b s) = .next t) :
    (∃ n, t = s.setIp n) ∨ t = s.setSt .faulted := by
  obtain h | ⟨r, -, rfl⟩ := commit_cases h
  · obtain ⟨c, -, ⟨-, u, -, -, rfl⟩ | ⟨-, -, rfl⟩⟩ := jumpWhen_eq_ok.1 h
    · exact .inl ⟨_, rfl⟩
    · exact .inl ⟨_, rfl⟩
  · exact .inr rfl

theorem commit_adjustBase_cases {a : Mode} (h : commit s (adjustBase a s) = .next t) :
    (∃ r, t = (s.setRb r).setIp (s.ip + 2)) ∨ t = s.setSt .faulted := by
  obtain h | ⟨r, -, rfl⟩ := commit_cases h
  · obtain ⟨d, -, -, -, rfl⟩ := adjustBase_eq_ok.1 h
    exact .inl ⟨_, rfl⟩
  · exact .inr rfl

end

/-- Settles O29: the four are three-parameter instructions, which store at their destination or are abandoned. -/
theorem storingInstructionsFrame : Obligations.StoringInstructionsFrame := by
  intro a b c i s t hi h
  rw [exec_eq_commit] at h
  have hcases : (∃ d r, destAddr c 3 s = .ok d ∧ t = (s.store d r).setIp (s.ip + 4)) ∨ t = s.setSt .faulted := by
    obtain rfl | rfl | rfl | rfl := hi <;> exact commit_threeParam_cases h
  obtain ⟨d, r, hd, rfl⟩ | rfl := hcases
  · refine ⟨rfl, rfl, rfl, .inl rfl, fun e he => ?_, fun q hq => by cases hd.symm.trans hq⟩
    cases hd.symm.trans he
    exact ⟨fun x hx => Memory.read_write_ne s.mem hx r, .inr rfl⟩
  · exact ⟨rfl, rfl, rfl, .inr rfl, fun d _ => ⟨fun x _ => rfl, .inl rfl⟩, fun q _ => ⟨rfl, rfl⟩⟩

/-- Settles O30: the suspending and halting steps write `st` alone, a jump `ip`, and ARB `rb` and `ip`. -/
theorem nonStoringInstructionsFrame : Obligations.NonStoringInstructionsFrame := by
  refine fun a b c s t => ⟨fun i hi h => ?suspend, fun i hi h => ?jump, fun h => ?arb⟩
  case suspend =>
    obtain rfl | rfl | rfl := hi <;> (cases h; exact ⟨rfl, rfl, rfl, rfl, rfl, rfl⟩)
  case jump =>
    have hcases : (∃ n, t = s.setIp n) ∨ t = s.setSt .faulted := by
      obtain rfl | rfl := hi <;> exact commit_jumpWhen_cases h
    obtain ⟨n, rfl⟩ | rfl := hcases
    · exact ⟨rfl, rfl, rfl, rfl, rfl, .inl rfl⟩
    · exact ⟨rfl, rfl, rfl, rfl, rfl, .inr rfl⟩
  case arb =>
    obtain ⟨r, rfl⟩ | rfl := commit_adjustBase_cases h
    · exact ⟨rfl, rfl, rfl, rfl, .inl rfl⟩
    · exact ⟨rfl, rfl, rfl, rfl, .inr rfl⟩

end Sys2Proof.Machine
end

section
/-! PROOFS about the pending IN and OUT, and about writes that are seen (42_io.md R131, R133; 20_memory.md R54, R57;
10_state.md R27). -/

namespace Sys2Proof.Machine

open Sys2Proof.Config

/-! ### The two completions -/

theorem resumeInput_not_ready {s : State} (h : ¬ ∃ d, InputReady s d) (v : Word) :
    resumeInput v s = s.setSt .faulted := by
  obtain ⟨d, hd, -⟩ | ⟨-, hr⟩ := resumeInput_cases v s
  · exact absurd ⟨d, hd⟩ h
  · exact hr

theorem resumeOutput_not_ready {s : State} (h : ¬ ∃ x, OutputReady s x) :
    resumeOutput s = (s.setSt .faulted, .noValue) := by
  obtain ⟨x, hx, -⟩ | ⟨-, hr⟩ := resumeOutput_cases s
  · exact absurd ⟨x, hx⟩ h
  · exact hr

theorem perform_supply_awaitingInput {s : State} (hs : s.st = .awaitingInput) (n : Nat) (v : Word) :
    perform n (.supply v) s = runThen n .done (resumeInput v s) := by
  simp only [perform, supply, hs]

theorem perform_consume_hasOutput {s : State} (hs : s.st = .hasOutput) (n : Nat) :
    perform n .consume s = runThen n (resumeOutput s).2 (resumeOutput s).1 := by
  simp only [perform, consume, hs]

theorem runThen_faulted (n : Nat) (reply : Reply) (s : State) :
    runThen n reply (s.setSt .faulted) = .next (s.setSt .faulted, reply) :=
  runThen_not_running (by simp) n reply

/-- Settles O46: SUPPLY in its turn runs what the completion of IN leaves, and a Faulted machine does not run. -/
theorem supplyCompletesPendingInput : Obligations.SupplyCompletesPendingInput := by
  intro n v s hs
  rw [perform_supply_awaitingInput hs]
  refine ⟨fun d hd => ?ready, fun hnot => ?notReady⟩
  case ready =>
    rw [resumeInput_ready hd]
    rfl
  case notReady =>
    rw [resumeInput_not_ready hnot]
    exact runThen_faulted n .done s

/-- Settles O47: CONSUME in its turn runs what the completion of OUT leaves, and a Faulted machine does not run. -/
theorem consumeDeliversPendingOutput : Obligations.ConsumeDeliversPendingOutput := by
  intro n s hs
  rw [perform_consume_hasOutput hs]
  refine ⟨fun x hx => ?ready, fun hnot => ?notReady⟩
  case ready =>
    rw [resumeOutput_ready hx]
    rfl
  case notReady =>
    rw [resumeOutput_not_ready hnot]
    exact runThen_faulted n .noValue s

/-! ### The step that suspends, then the completion -/

/-- Settles O26: the latched mode is the mode of the IN that suspended the machine, and the suspension moves neither
Memory nor `ip`. -/
theorem inputStoresSuppliedValue : Obligations.InputStoresSuppliedValue := by
  intro a b c v d s hs hdec hip hd hl
  refine ⟨_, step_running_ok hs hdec, rfl, ?_⟩
  have hready : InputReady ((latch (.inp a b c) s).setSt .awaitingInput) d :=
    ⟨hip, (destAddr_congr s _ a 1 rfl rfl rfl).trans hd, hl⟩
  rw [resumeInput_ready hready, ← hs]
  rfl

/-- Settles O27, as `inputStoresSuppliedValue`. -/
theorem outputDeliversOperand : Obligations.OutputDeliversOperand := by
  intro a b c x s hs hdec hx hip
  refine ⟨_, step_running_ok hs hdec, rfl, ?_⟩
  have hready : OutputReady ((latch (.out a b c) s).setSt .hasOutput) x :=
    ⟨(readParam_congr s _ a 1 rfl rfl rfl).trans hx, hip⟩
  rw [resumeOutput_ready hready, ← hs]
  rfl

/-! ### Writes that are seen -/

/-- Settles O56: the ADD leaves its sum in the cell that `ip` then names. -/
theorem nextFetchSeesStoredWord : Obligations.NextFetchSeesStoredWord := by
  intro a b c x y r j s hwf hs hdec hready hr hj
  have hready' : ThreeParamReady a b c (latch (.add a b c) s) x y (s.ip + 4) := by
    obtain ⟨hx, hy, hip, hd, hl⟩ := hready
    exact ⟨(readParam_congr s _ a 1 rfl rfl rfl).trans hx, (readParam_congr s _ b 2 rfl rfl rfl).trans hy, hip,
      (destAddr_congr s _ c 3 rfl rfl rfl).trans hd, hl⟩
  have hstored : (s.mem.write (s.ip + 4) r).read (s.ip + 4) = r := Memory.read_write_same hwf _ r
  refine ⟨{ latch (.add a b c) s with
    mem := s.mem.write (s.ip + 4) r, len := max s.len (s.ip + 4 + 1), ip := s.ip + 4 }, ?step, hstored, ?next⟩
  case step =>
    rw [step_running_ok hs hdec, exec_eq_commit]
    exact commit_threeParam_of_ready hready' (narrow_eq_ok_iff_toInt.2 hr)
  case next => exact step_running_ok hs (hstored.symm ▸ hj)

/-- Settles O57: the completion fetches the literal anew, so it finds the one that was poked. -/
theorem pokedLiteralMovesPendingInput : Obligations.PokedLiteralMovesPendingInput := by
  intro L v s hwf _ hmode hip hl hL hLl
  refine ⟨s.store (s.ip + 1) L, poke_eq_next.2 ⟨hl, rfl⟩, ?_⟩
  have hready : InputReady (s.store (s.ip + 1) L) L.toNat := by
    have hfetch : fetchParam 1 (s.store (s.ip + 1) L) = .ok L :=
      fetchParam_eq_ok.2 ⟨by rw [State.store_ip]; omega, (Memory.read_write_same hwf _ L).symm⟩
    refine ⟨hip, ?_, hLl⟩
    rw [State.store_dir, hmode, destAddr_position hfetch, eaPos_of_nonneg hL]
  rw [resumeInput_ready hready]
  have hwf' : (s.mem.write (s.ip + 1) L).wf := Memory.write_wf hwf _ L
  refine ⟨Memory.read_write_same hwf' _ v, rfl, rfl, fun x hxL hx => ?_⟩
  calc ((s.mem.write (s.ip + 1) L).write L.toNat v).read x
    _ = (s.mem.write (s.ip + 1) L).read x := Memory.read_write_ne _ hxL v
    _ = s.mem.read x := Memory.read_write_ne _ hx L

/-- Settles O58: the completion takes the mode from the latch and the literal from `ip + 1`, which the POKE leaves. -/
theorem pokedOpcodeKeepsPendingInput : Obligations.PokedOpcodeKeepsPendingInput := by
  intro w v d s t _ hready hpoke
  obtain ⟨-, rfl⟩ := poke_eq_next.1 hpoke
  obtain ⟨hip, hd, hl⟩ := hready
  have hliteral : (s.store s.ip w).mem.read (s.ip + 1) = s.mem.read (s.ip + 1) :=
    Memory.read_write_ne s.mem (by omega) w
  have hready' : InputReady (s.store s.ip w) d :=
    ⟨hip, (destAddr_congr s _ s.dir.mode1 1 hliteral rfl rfl).trans hd, hl⟩
  rw [resumeInput_ready hready']
  rfl

end Sys2Proof.Machine
end

section
/-! PROOFS about the invariant: the updates that keep it, the step, the host commands, LOAD and reset. -/

namespace Sys2Proof.Machine

open Sys2Proof.Config

/-! ### The updates that keep the invariant -/

section
variable {s : State}

theorem State.Inv.store (h : s.Inv) {a : Nat} (ha : a < s.params.memLimit) (v : Word) : (s.store a v).Inv := by
  obtain ⟨hwf, hcells, hlen, hparams, hip, hlatch⟩ := h
  refine ⟨Memory.write_wf hwf a v, fun x hx => ?_, max_le hlen ha, hparams, hip, hlatch⟩
  obtain ⟨rfl, -⟩ | hx := Memory.mem_write hx
  · exact lt_max_of_lt_right (Nat.lt_succ_self a)
  · exact lt_max_of_lt_left (hcells x hx)

theorem State.Inv.setIp (h : s.Inv) {a : Nat} (ha : a ≤ addrMax) : (s.setIp a).Inv := by
  obtain ⟨hwf, hcells, hlen, hparams, -, hlatch⟩ := h
  exact ⟨hwf, hcells, hlen, hparams, ha, hlatch⟩

theorem State.Inv.setRb (h : s.Inv) (w : Word) : (s.setRb w).Inv := h

theorem State.Inv.of_latchMatches_setSt (h : s.Inv) {e : ExecState} (he : (s.setSt e).LatchMatches) :
    (s.setSt e).Inv := by
  obtain ⟨hwf, hcells, hlen, hparams, hip, -⟩ := h
  exact ⟨hwf, hcells, hlen, hparams, hip, he⟩

theorem State.Inv.setSt (h : s.Inv) {e : ExecState} (hin : e ≠ .awaitingInput) (hout : e ≠ .hasOutput) :
    (s.setSt e).Inv :=
  h.of_latchMatches_setSt ⟨fun he => absurd he hin, fun he => absurd he hout⟩

/-- The latch may be written while the machine is not suspended. -/
theorem State.Inv.latch (h : s.Inv) (hs : s.st = .running) (i : Instr) : (latch i s).Inv := by
  obtain ⟨hwf, hcells, hlen, hparams, hip, -⟩ := h
  exact ⟨hwf, hcells, hlen, hparams, hip, fun he => absurd (hs.symm.trans he) nofun,
    fun he => absurd (hs.symm.trans he) nofun⟩

end

/-! ### The step -/

/-- An effect keeps the invariant when the latch holds the instruction's opcode, as it does in a step; IN and OUT need
it for the suspension. -/
theorem effectOf_inv {i : Instr} {s t : State} (h : s.Inv) (hop : s.dir.op = i.opcode) (he : effectOf i s = .ok t) :
    t.Inv := by
  obtain ⟨d, r, -, hl, hip, rfl⟩ | ⟨a, ha, rfl⟩ | ⟨r, hip, rfl, -⟩ | ⟨hi, rfl⟩ | ⟨hi, rfl⟩ | ⟨-, rfl⟩ :=
    effectOf_cases he
  · exact (h.store hl r).setIp hip
  · exact h.setIp ha
  · exact (h.setRb r).setIp hip
  · exact h.of_latchMatches_setSt ⟨fun _ => hop.trans hi, nofun⟩
  · exact h.of_latchMatches_setSt ⟨nofun, fun _ => hop.trans hi⟩
  · exact h.setSt nofun nofun

/-- Settles O36: every outcome of a step is made of updates that keep the invariant. -/
theorem stepKeepsInvariant : Obligations.StepKeepsInvariant := by
  intro s t h hstep
  obtain ⟨-, rfl⟩ | ⟨-, r, -, rfl⟩ | ⟨hs, i, -, ⟨r, -, rfl⟩ | he⟩ := step_cases hstep
  · exact h
  · exact h.setSt nofun nofun
  · exact (h.latch hs i).setSt nofun nofun
  · exact effectOf_inv (h.latch hs i) rfl he

/-! ### The commands -/

theorem resumeInput_inv {s : State} (h : s.Inv) (v : Word) : (resumeInput v s).Inv := by
  obtain ⟨d, ⟨hip, -, hl⟩, hr⟩ | ⟨-, hr⟩ := resumeInput_cases v s <;> rw [hr]
  · exact ((h.store hl v).setIp hip).setSt nofun nofun
  · exact h.setSt nofun nofun

theorem resumeOutput_inv {s : State} (h : s.Inv) : (resumeOutput s).1.Inv := by
  obtain ⟨x, ⟨-, hip⟩, hr⟩ | ⟨-, hr⟩ := resumeOutput_cases s <;> rw [hr]
  · exact (h.setIp hip).setSt nofun nofun
  · exact h.setSt nofun nofun

theorem perform_inv (n : Nat) (c : Command) (s t : State) (r : Reply) (h : s.Inv)
    (hc : perform n c s = .next (t, r)) : t.Inv :=
  perform_keeps stepKeepsInvariant (fun v _ hs => resumeInput_inv hs v) (fun _ => resumeOutput_inv)
    (fun _ hs _ => hs.setSt nofun nofun) (fun _ v _ hs ha => hs.store ha v) n c s t r h hc

/-- Settles O37: the steps, resumes, faults and stores that commands are made of keep the invariant. -/
theorem commandsKeepInvariant : Obligations.CommandsKeepInvariant := ⟨perform_inv, session_keeps perform_inv⟩

/-! ### LOAD and reset -/

/-- Settles O38: the cells of a placed image stand below its length. -/
theorem loadedMachineMeetsInvariant : Obligations.LoadedMachineMeetsInvariant := by
  intro p latch image s hp hload
  obtain ⟨hfits, rfl⟩ := load_eq_next.1 hload
  refine ⟨imageCells_wf 0 image, fun x hx => ?_, hfits, hp, Nat.zero_le _, nofun, nofun⟩
  obtain ⟨-, hlt, -⟩ := mem_imageCells hx
  exact Nat.zero_add image.length ▸ hlt

theorem load_nil_eq_reset : load State.reset.params State.reset.dir [] = .next State.reset := rfl

/-- Settles O39: reset is LOAD of the empty image with parameters in range. -/
theorem resetMeetsInvariant : Obligations.ResetMeetsInvariant :=
  loadedMachineMeetsInvariant _ _ [] _ (by decide) load_nil_eq_reset

/-- Settles O41: the reset Memory lists no cell, and reset is LOAD of the empty image. -/
theorem resetHoldsSpecValues : Obligations.ResetHoldsSpecValues :=
  ⟨fun _ => rfl, rfl, rfl, rfl, rfl, load_nil_eq_reset⟩

end Sys2Proof.Machine
end

section
/-! PROOFS about the programs that LOAD and the table's words bring in (30_encoding.md R82;
70_reset_and_hazards.md R190). -/

namespace Sys2Proof.Machine

open Sys2Proof.Config

/-- Settles O51, by the one check LOAD makes. -/
theorem oversizedImageIsRefused : Obligations.OversizedImageIsRefused := fun _ _ _ h => if_neg (Nat.not_le.2 h)

/-- The parameter fetch of a machine whose `ip` is 0 and whose Memory holds an assembled instruction. -/
theorem fetchParam_of_assembled {s : State} {i : Instr} {l1 l2 l3 : Word} {rest : List Word} {k : Nat}
    (hip : s.ip = 0) (hmem : s.mem = { cells := imageCells 0 (assemble i l1 l2 l3 ++ rest) })
    (hk : k < i.opcode.paramCount) : fetchParam (k + 1) s = .ok ([l1, l2, l3][k]?.getD 0) := by
  have hle := i.opcode.paramCount_le
  refine fetchParam_eq_ok.2 ⟨by rw [hip]; simp only [addrMax]; omega, ?_⟩
  rw [hip, hmem, Nat.zero_add, read_image, getElem?_assemble_succ hk]

/-- Settles O42: the instruction word stands at 0, and the literals of the used slots behind it. -/
theorem loadedInstructionRunsFirst : Obligations.LoadedInstructionRunsFirst := by
  intro i l1 l2 l3 rest p latch hfits
  refine ⟨_, load_eq_next.2 ⟨hfits, rfl⟩, step_running_ok rfl ?word, fetchParam_of_assembled rfl rfl,
    fetchParam_of_assembled rfl rfl, fetchParam_of_assembled rfl rfl⟩
  case word =>
    rw [read_image, assemble, List.cons_append, List.getElem?_cons_zero, Option.getD_some]
    exact decode_encode i

/-! ### A placed table word -/

theorem placeWords_ip (ws : List Word) (a : Nat) (s : State) : (placeWords a ws s).ip = s.ip := by
  induction ws generalizing a s with
  | nil => rfl
  | cons w ws ih =>
    rw [placeWords, ih]
    split <;> rfl

theorem placeWords_read_of_lt (ws : List Word) {a b : Nat} (hb : b < a) (s : State) :
    (placeWords a ws s).mem.read b = s.mem.read b := by
  induction ws generalizing a s with
  | nil => rfl
  | cons w ws ih =>
    rw [placeWords, ih (by omega)]
    split
    · exact Memory.read_write_ne s.mem (by omega) w
    · rfl

theorem placeWords_read_head {a : Nat} (ha : a ≤ addrMax) (w : Word) (ws : List Word) {s : State} (hs : s.mem.wf) :
    (placeWords a (w :: ws) s).mem.read a = w := by
  rw [placeWords, placeWords_read_of_lt ws (Nat.lt_succ_self a), if_pos ha]
  exact Memory.read_write_same hs a w

theorem decodeTableWord_eq_some {nbits w : Nat} {i : Instr} :
    decodeTableWord nbits w = some i ↔ decode (tableWord nbits w 0) = .ok i := by
  unfold decodeTableWord
  cases decode (tableWord nbits w 0) <;> simp

/-- The next step fetches the first of the four placed words. -/
theorem withFetchWord_read_ip {s : State} (hs : s.mem.wf) (hip : s.ip ≤ addrMax) (nbits w : Nat) :
    (s.withFetchWord nbits w).mem.read (s.withFetchWord nbits w).ip = tableWord nbits w 0 := by
  rw [State.withFetchWord, State.setSt_ip, State.setSt_mem, placeWords_ip]
  exact placeWords_read_head hip _ _ hs

/-- Settles O43: the step fetches the placed word, which the decoder reads as `i`. -/
theorem placedTableWordRuns : Obligations.PlacedTableWordRuns := by
  intro s nbits w i hs hip hdec
  refine step_running_ok rfl ?_
  rw [withFetchWord_read_ip hs hip]
  exact decodeTableWord_eq_some.1 hdec

end Sys2Proof.Machine
end

section
/-! PROOFS about the host commands to one machine: RUN, the commands out of turn, PEEK and POKE, the moves of the
execution state, faults, and Memory's length (40_engine.md R92, R98 to R100; 20_memory.md R44 to R46;
60_exceptions.md R171). -/

namespace Sys2Proof.Machine

open Sys2Proof.Config

/-! ### RUN -/

/-- Settles O44, by the run loop outside Running and in Running. -/
theorem runRepeatsSteps : Obligations.RunRepeatsSteps := by
  refine fun s => ⟨fun hs n => runThen_not_running hs n .done, fun hs => ⟨?_, fun n t ht => ?_⟩⟩
  · simp only [perform, runThen, runLoop, hs, if_true]
  · simp only [perform, runThen, runLoop_running hs ht]

/-- Settles O45: the step that a larger budget adds to a run that has stopped does nothing. -/
theorem runBudgetDoesNotMatter : Obligations.RunBudgetDoesNotMatter := by
  intro n m s t hnm hrun ht
  induction m, hnm using Nat.le_induction with
  | base => exact hrun
  | succ m _ ih => rw [runLoop_succ m ih, step_not_running ht]

/-! ### Commands out of turn, and the commands that run nothing -/

theorem supplyOutOfTurn_of_noop {s : State} (h : s.params.misorderSupply = .noop) : supplyOutOfTurn s = s := by
  simp only [supplyOutOfTurn, h]

theorem supplyOutOfTurn_of_terminal {s : State} (h : s.Terminal) : supplyOutOfTurn s = s := by
  obtain hs | ⟨-, hst, -⟩ := supplyOutOfTurn_cases s
  · exact hs
  · obtain h | h := h <;> simp [h] at hst

theorem supplyOutOfTurn_of_fault {s : State} (hst : s.st = .running ∨ s.st = .hasOutput)
    (h : s.params.misorderSupply = .fault) : supplyOutOfTurn s = s.setSt .faulted := by
  simp only [supplyOutOfTurn, h]
  exact if_pos hst

theorem Command.engineState_ne_terminal (c : Command) :
    c.engineState ≠ some .halted ∧ c.engineState ≠ some .faulted := by
  cases c <;> exact ⟨nofun, nofun⟩

theorem not_runsEngine_of_terminal {s : State} (hs : s.Terminal) (c : Command) : ¬ RunsEngine c s := by
  obtain ⟨hhalted, hfaulted⟩ := c.engineState_ne_terminal
  intro h
  obtain hs | hs := hs
  · exact hhalted (hs ▸ h)
  · exact hfaulted (hs ▸ h)

theorem not_runsEngine_of_st_ne {c : Command} {e : ExecState} {s : State} (hc : c.engineState = some e)
    (hs : s.st ≠ e) : ¬ RunsEngine c s :=
  fun h => hs (Option.some.inj (h.symm.trans hc))

theorem perform_poke (n a : Nat) (v : Word) (s : State) :
    perform n (.poke a v) s =
      if a < s.params.memLimit then .next (s.store a v, .done) else .refused .pokeBeyondLimit :=
  perform_of_not_runsEngine (c := .poke a v) (by simp [Command.engineState]) n

/-- Out of its turn SUPPLY does what `supplyOutOfTurn` says, whatever the budget. -/
theorem perform_supply_outOfTurn {s : State} (hs : s.st ≠ .awaitingInput) (n : Nat) (v : Word) :
    perform n (.supply v) s = .next (supplyOutOfTurn s, .done) :=
  perform_of_not_runsEngine (not_runsEngine_of_st_ne rfl hs) n

/-- Settles O48: a command out of its turn runs nothing, and for SUPPLY `supplyOutOfTurn` decides. -/
theorem outOfTurnCommandsChangeNothing : Obligations.OutOfTurnCommandsChangeNothing := by
  refine fun n v s => ⟨fun hs => ?run, fun hs => ?consume, fun hs hnoop => ?noop, fun hs => ?terminal,
    fun hs hfault => ?fault⟩
  case run => exact perform_of_not_runsEngine (not_runsEngine_of_st_ne rfl hs) n
  case consume => exact perform_of_not_runsEngine (not_runsEngine_of_st_ne rfl hs) n
  case noop => rw [perform_supply_outOfTurn hs, supplyOutOfTurn_of_noop hnoop]
  case terminal =>
    rw [perform_of_not_runsEngine (not_runsEngine_of_terminal hs _), answerWithoutEngine,
      supplyOutOfTurn_of_terminal hs]
  case fault =>
    have hturn : s.st ≠ .awaitingInput := by obtain h | h := hs <;> simp [h]
    rw [perform_supply_outOfTurn hturn, supplyOutOfTurn_of_fault hs hfault]
    rfl

/-- Settles O49, on each side of `ADDR_MAX`. -/
theorem peekReadsOneWord : Obligations.PeekReadsOneWord := by
  refine fun n a s => ⟨fun h => ?_, fun h => ?_⟩
  · rw [perform, peek, if_pos h, memRead]
  · rw [perform, peek, if_neg (not_le.2 h)]

/-- Settles O50: below `MEM_LIMIT` a POKE is one store. -/
theorem pokeWritesOneWord : Obligations.PokeWritesOneWord := by
  refine fun n a v s hs => ⟨fun h => ?_, fun h => ?_⟩
  · exact ⟨s.store a v, by rw [perform_poke, if_pos h], store_frame hs a v⟩
  · rw [perform_poke, if_neg (not_lt.2 h)]

/-! ### The execution state -/

/-- Settles O53, state by state. -/
theorem execStateCodes : Obligations.ExecStateCodes :=
  ⟨rfl, rfl, rfl, rfl, rfl, fun e => by cases e <;> decide⟩

/-- The execution state an instruction leaves when it does not fault (40_engine.md R100). -/
theorem effectOf_st {i : Instr} {s t : State} (h : effectOf i s = .ok t) :
    (i.opcode = .inp → t.st = .awaitingInput) ∧ (i.opcode = .out → t.st = .hasOutput) ∧
      (i.opcode = .hlt → t.st = .halted) ∧
      (i.opcode ≠ .inp → i.opcode ≠ .out → i.opcode ≠ .hlt → t.st = s.st) := by
  have heta : effectOf (i.opcode.instr i.mode1 i.mode2 i.mode3) s = .ok t := i.eta.symm ▸ h
  refine ⟨fun hi => ?inp, fun hi => ?out, fun hi => ?hlt, fun hin hout hhlt => ?other⟩
  case inp => rw [hi] at heta; cases heta; rfl
  case out => rw [hi] at heta; cases heta; rfl
  case hlt => rw [hi] at heta; cases heta; rfl
  case other =>
    obtain ⟨d, r, -, -, -, rfl⟩ | ⟨a, -, rfl⟩ | ⟨r, -, rfl, -⟩ | ⟨hi, -⟩ | ⟨hi, -⟩ | ⟨hi, -⟩ := effectOf_cases h
    · rfl
    · rfl
    · rfl
    · exact absurd hi hin
    · exact absurd hi hout
    · exact absurd hi hhlt

theorem effectOf_st_ne_faulted {i : Instr} {s t : State} (hs : s.st = .running) (h : effectOf i s = .ok t) :
    t.st ≠ .faulted := by
  obtain ⟨hinp, hout, hhlt, hother⟩ := effectOf_st h
  by_cases h1 : i.opcode = .inp
  · simp [hinp h1]
  by_cases h2 : i.opcode = .out
  · simp [hout h2]
  by_cases h3 : i.opcode = .hlt
  · simp [hhlt h3]
  · simp [hother h1 h2 h3, hs]

theorem resumeInput_st_iff (v : Word) (s : State) :
    ((resumeInput v s).st = .running ↔ ∃ t, completeInput v s = .ok t) ∧
      ((resumeInput v s).st = .faulted ↔ ∃ r, completeInput v s = .error r) := by
  cases hc : completeInput v s with
  | ok t => simp [resumeInput, hc]
  | error r => simp [resumeInput, hc]

theorem resumeOutput_st_iff (s : State) :
    ((resumeOutput s).1.st = .running ↔ ∃ t, completeOutput s = .ok t) ∧
      ((resumeOutput s).1.st = .faulted ↔ ∃ r, completeOutput s = .error r) := by
  cases hc : completeOutput s with
  | ok t => simp [resumeOutput, hc]
  | error r => simp [resumeOutput, hc]

/-- In a terminal state every command but POKE leaves the whole state (40_engine.md R99). -/
theorem perform_terminal {c : Command} {s : State} (hs : s.Terminal) (hc : ∀ a v, c ≠ .poke a v) (n : Nat) :
    ∃ r, perform n c s = .next (s, r) := by
  rw [perform_of_not_runsEngine (not_runsEngine_of_terminal hs c)]
  cases c with
  | supply v => exact ⟨.done, by rw [answerWithoutEngine, supplyOutOfTurn_of_terminal hs]⟩
  | poke a v => exact absurd rfl (hc a v)
  | run => exact ⟨_, rfl⟩
  | consume => exact ⟨_, rfl⟩
  | peek a => exact ⟨_, rfl⟩
  | state => exact ⟨_, rfl⟩
  | duplicate => exact ⟨_, rfl⟩

theorem perform_poke_eq_next {n a : Nat} {v : Word} {s t : State} {r : Reply}
    (h : perform n (.poke a v) s = .next (t, r)) : t = s.store a v := by
  rw [perform_poke] at h
  split at h
  · cases h
    rfl
  · cases h

/-- Everything a command can do to the state of a terminal machine. -/
theorem perform_terminal_cases {n : Nat} {c : Command} {s t : State} {r : Reply} (hs : s.Terminal)
    (h : perform n c s = .next (t, r)) : t = s ∨ ∃ a v, t = s.store a v := by
  by_cases hc : ∃ a v, c = .poke a v
  · obtain ⟨a, v, rfl⟩ := hc
    exact .inr ⟨a, v, perform_poke_eq_next h⟩
  · obtain ⟨q, hq⟩ := perform_terminal hs (fun a v e => hc ⟨a, v, e⟩) n
    cases hq.symm.trans h
    exact .inl rfl

/-- Settles O34: the row of the step is `effectOf_st`, that of the terminal states `perform_terminal_cases`. -/
theorem execStateTransitions : Obligations.ExecStateTransitions := by
  refine ⟨fun p latch image s h => ?load, fun s t hs h => ?step, resumeInput_st_iff, resumeOutput_st_iff,
    fun n a v c s t r hc h => ?passive, fun n c s t r hs h => ?terminal⟩
  case load =>
    obtain ⟨-, rfl⟩ := load_eq_next.1 h
    rfl
  case step =>
    obtain ⟨hns, -⟩ | ⟨-, r, -, rfl⟩ | ⟨-, i, hd, ⟨r, -, rfl⟩ | he⟩ := step_cases h
    · exact absurd hs hns
    · exact .inl rfl
    · exact .inl rfl
    · obtain ⟨hinp, hout, hhlt, hother⟩ := effectOf_st he
      exact .inr ⟨i, hd, hinp, hout, hhlt, fun h1 h2 h3 => (hother h1 h2 h3).trans hs⟩
  case passive =>
    obtain rfl | rfl | rfl | rfl := hc
    · cases h; rfl
    · rw [perform_poke_eq_next h, State.store_st]
    · cases h; rfl
    · cases h; rfl
  case terminal =>
    obtain rfl | ⟨a, v, rfl⟩ := perform_terminal_cases hs h
    · rfl
    · rfl

/-! ### Faults -/

/-- Settles O31: an effect that is not abandoned leaves no Faulted machine, so a Faulted one was abandoned. -/
theorem faultsArePrecise : Obligations.FaultsArePrecise := by
  refine ⟨fun s t hs h ht => ?step, fun v s h => ?input, fun s h => ?output, fun s h => ?misorder⟩
  case step =>
    obtain ⟨hns, -⟩ | ⟨-, r, hd, rfl⟩ | ⟨-, i, hd, ⟨r, -, rfl⟩ | he⟩ := step_cases h
    · exact absurd hs hns
    · exact .inl ⟨r, hd, rfl⟩
    · exact .inr ⟨i, hd, rfl⟩
    · exact absurd ht (effectOf_st_ne_faulted (s := latch i s) hs he)
  case input =>
    obtain ⟨d, -, hr⟩ | ⟨-, hr⟩ := resumeInput_cases v s
    · simp [hr] at h
    · exact hr
  case output =>
    obtain ⟨x, -, hr⟩ | ⟨-, hr⟩ := resumeOutput_cases s
    · simp [hr] at h
    · exact hr
  case misorder =>
    obtain hr | ⟨-, -, hr⟩ := supplyOutOfTurn_cases s
    · rw [hr] at h ⊢
      rw [← h]
    · exact hr

/-! ### The length -/

theorem effectOf_len_le {i : Instr} {s t : State} (h : effectOf i s = .ok t) : s.len ≤ t.len := by
  obtain ⟨d, r, -, -, -, rfl⟩ | ⟨a, -, rfl⟩ | ⟨r, -, rfl, -⟩ | ⟨-, rfl⟩ | ⟨-, rfl⟩ | ⟨-, rfl⟩ := effectOf_cases h
  · exact le_max_left s.len (d + 1)
  all_goals exact le_rfl

theorem step_len_le {s t : State} (h : step s = .next t) : s.len ≤ t.len := by
  obtain ⟨-, rfl⟩ | ⟨-, r, -, rfl⟩ | ⟨-, i, -, ⟨r, -, rfl⟩ | he⟩ := step_cases h
  · exact le_rfl
  · exact le_rfl
  · exact le_rfl
  · exact effectOf_len_le (s := latch i s) he

theorem resumeInput_len_le (v : Word) (s : State) : s.len ≤ (resumeInput v s).len := by
  obtain ⟨d, -, hr⟩ | ⟨-, hr⟩ := resumeInput_cases v s <;> simp [hr]

theorem resumeOutput_len (s : State) : (resumeOutput s).1.len = s.len := by
  obtain ⟨x, -, hr⟩ | ⟨-, hr⟩ := resumeOutput_cases s <;> simp [hr]

theorem perform_len_le {m n : Nat} {c : Command} {s t : State} {r : Reply} (hm : m ≤ s.len)
    (h : perform n c s = .next (t, r)) : m ≤ t.len :=
  perform_keeps (P := fun u => m ≤ u.len) (fun _ _ hu hstep => hu.trans (step_len_le hstep))
    (fun v u hu => hu.trans (resumeInput_len_le v u)) (fun u hu => hu.trans (resumeOutput_len u).ge)
    (fun _ hu _ => hu) (fun a _ u hu _ => hu.trans (le_max_left u.len (a + 1))) n c s t r hm h

/-- Settles O33: a store takes the larger of two lengths, and nothing else writes the length. -/
theorem lengthOnlyGrows : Obligations.LengthOnlyGrows :=
  ⟨fun _ _ => step_len_le,
    fun cs s => session_keeps (P := fun u => s.len ≤ u.len) (fun _ _ _ _ _ => perform_len_le) cs s le_rfl⟩

end Sys2Proof.Machine
end

section
/-! PROOFS about sessions: no session moves a terminal machine, and a session with several machines gives each of them
its own commands (40_engine.md R97, R99, R102; 10_state.md R25, R35). -/

namespace Sys2Proof.Machine

/-! ### Terminal machines -/

theorem session_cons_next {n : Nat} {c : Command} {s t : State} {r : Reply} (h : perform n c s = .next (t, r))
    (cs : List (Nat × Command)) : session ((n, c) :: cs) s = if r = .notReturned then t else session cs t := by
  cases r <;> simp [session, h]

theorem session_cons_refused {n : Nat} {c : Command} {s : State} {r : Refusal} (h : perform n c s = .refused r)
    (cs : List (Nat × Command)) : session ((n, c) :: cs) s = session cs s := by
  simp only [session, h]

/-- `t` differs from `s` at most in Memory, its length and the parameters. -/
def State.AgreesOffMemory (s t : State) : Prop := t.st = s.st ∧ t.ip = s.ip ∧ t.rb = s.rb ∧ t.dir = s.dir

theorem perform_terminal_agreesOffMemory {s : State} (hs : s.Terminal) (n : Nat) (c : Command) (u t : State) (r : Reply)
    (hu : s.AgreesOffMemory u) (h : perform n c u = .next (t, r)) : s.AgreesOffMemory t := by
  have hut : u.Terminal := by
    obtain ⟨hst, -⟩ := hu
    rwa [State.Terminal, hst]
  obtain rfl | ⟨a, v, rfl⟩ := perform_terminal_cases hut h
  · exact hu
  · exact hu

theorem session_terminal_of_no_poke {s : State} (hs : s.Terminal) (cs : List (Nat × Command))
    (hno : ∀ n a v, (n, Command.poke a v) ∉ cs) : session cs s = s := by
  induction cs with
  | nil => rfl
  | cons x cs ih =>
    obtain ⟨n, c⟩ := x
    have hc : ∀ a v, c ≠ .poke a v := fun a v e => hno n a v (e ▸ List.mem_cons_self)
    obtain ⟨r, hr⟩ := perform_terminal hs hc n
    rw [session_cons_next hr, ih fun n a v hmem => hno n a v (List.mem_cons_of_mem _ hmem), ite_self]

/-- Settles O35: in a terminal state a POKE stores a word and every other command leaves the state. -/
theorem terminalStatesAreFinal : Obligations.TerminalStatesAreFinal := by
  intro cs s hs
  obtain ⟨hst, hip, hrb, hdir⟩ : s.AgreesOffMemory (session cs s) :=
    session_keeps (perform_terminal_agreesOffMemory hs) cs s ⟨rfl, rfl, rfl, rfl⟩
  exact ⟨hst, hip, hrb, hdir, session_terminal_of_no_poke hs cs⟩

/-! ### A command never stops the model -/

theorem runLoop_next (n : Nat) (s : State) : ∃ t, runLoop n s = .next t := by
  induction n generalizing s with
  | zero => exact ⟨s, rfl⟩
  | succ n ih =>
    by_cases hs : s.st = .running
    · obtain ⟨t, ht⟩ := step_next s
      rw [runLoop_running hs ht]
      exact ih t
    · exact ⟨s, runLoop_not_running hs _⟩

theorem runThen_next (n : Nat) (reply : Reply) (s : State) : ∃ t r, runThen n reply s = .next (t, r) := by
  obtain ⟨t, ht⟩ := runLoop_next n s
  exact ⟨t, _, by rw [runThen, ht]⟩

/-- A command answers a next state, or, if it is a POKE past `MEM_LIMIT`, is refused. -/
theorem perform_cases (n : Nat) (c : Command) (s : State) :
    (∃ t r, perform n c s = .next (t, r)) ∨ ∃ r, perform n c s = .refused r := by
  by_cases hc : RunsEngine c s
  · obtain ⟨u, reply, -, hrun⟩ := perform_of_runsEngine hc
    rw [hrun]
    exact .inl (runThen_next n reply u)
  · rw [perform_of_not_runsEngine hc]
    cases c with
    | poke a v =>
      by_cases ha : a < s.params.memLimit
      · exact .inl ⟨_, _, if_pos ha⟩
      · exact .inr ⟨_, if_neg ha⟩
    | run => exact .inl ⟨_, _, rfl⟩
    | supply v => exact .inl ⟨_, _, rfl⟩
    | consume => exact .inl ⟨_, _, rfl⟩
    | peek a => exact .inl ⟨_, _, rfl⟩
    | state => exact .inl ⟨_, _, rfl⟩
    | duplicate => exact .inl ⟨_, _, rfl⟩

/-! ### A session with several machines -/

section
variable {n i : Nat} {h : HostCommand} {cs : List (Nat × HostCommand)} {busy : List Nat} {w w' : World} {s : State}

theorem World.sessionFrom_cons_busy (hbusy : h.target.any busy.contains = true) :
    World.sessionFrom ((n, h) :: cs) busy w = World.sessionFrom cs busy w := by
  rw [World.sessionFrom, if_pos hbusy]

theorem World.sessionFrom_cons_next {r : Reply} (hbusy : ¬ h.target.any busy.contains = true)
    (hc : World.command n h w = .next (w', r)) :
    World.sessionFrom ((n, h) :: cs) busy w =
      World.sessionFrom cs (if r = .notReturned then h.target.toList ++ busy else busy) w' := by
  rw [World.sessionFrom, if_neg hbusy, hc]

/-- A command that answers no world changes none. -/
theorem World.sessionFrom_cons_of_not_next (hc : ∀ x, World.command n h w ≠ .next x) :
    World.sessionFrom ((n, h) :: cs) busy w = World.sessionFrom cs busy w := by
  rw [World.sessionFrom]
  split
  · rfl
  · split
    · exact absurd ‹_› (hc _)
    · rfl
    · rfl

theorem World.command_machine_of_target_ne {r : Reply} (ht : h.target ≠ some i) (hs : w.machines[i]? = some s)
    (hc : World.command n h w = .next (w', r)) : w'.machines[i]? = some s := by
  obtain ⟨hi, -⟩ := List.getElem?_eq_some_iff.1 hs
  rw [← hs]
  cases h with
  | load p latch image => exact World.command_load_machines hi hc
  | on j c => exact World.command_on_machines_ne (fun e => ht (congrArg some e)) hi hc

/-- The machine a command is given to becomes what the command makes of it. -/
theorem World.command_on_next {c : Command} {t : State} {r : Reply} (hs : w.machines[i]? = some s)
    (hc : perform n c s = .next (t, r)) :
    ∃ w', World.command n (.on i c) w = .next (w', r) ∧ w'.machines[i]? = some t := by
  obtain ⟨hi, -⟩ := List.getElem?_eq_some_iff.1 hs
  refine ⟨_, World.command_on_eq_next.2 ⟨s, t, hs, hc, rfl⟩, ?_⟩
  rw [List.getElem?_append_left (by rwa [List.length_set]), List.getElem?_set_self hi]

theorem World.command_on_refused {c : Command} {r : Refusal} (hs : w.machines[i]? = some s)
    (hc : perform n c s = .refused r) : ∀ x, World.command n (.on i c) w ≠ .next x := by
  rintro ⟨w', q⟩ hnext
  obtain ⟨s', t, hs', ht, -⟩ := World.command_on_eq_next.1 hnext
  cases hs.symm.trans hs'
  cases hc.symm.trans ht

/-- What a session makes of machine `i`: a busy machine gets no command, another its own commands in their order. -/
def machineAfter (i : Nat) (cs : List (Nat × HostCommand)) (busy : List Nat) (s : State) : State :=
  if i ∈ busy then s else session (commandsTo i cs) s

theorem machineAfter_of_mem (hi : i ∈ busy) : machineAfter i cs busy s = s := if_pos hi

theorem machineAfter_of_not_mem (hi : i ∉ busy) : machineAfter i cs busy s = session (commandsTo i cs) s := if_neg hi

theorem commandsTo_cons_of_target_ne (ht : h.target ≠ some i) : commandsTo i ((n, h) :: cs) = commandsTo i cs := by
  cases h with
  | load p latch image => rfl
  | on j c => exact if_neg fun e => ht (congrArg some e)

theorem commandsTo_cons_on (c : Command) : commandsTo i ((n, .on i c) :: cs) = (n, c) :: commandsTo i cs := if_pos rfl

theorem machineAfter_cons_of_target_ne (ht : h.target ≠ some i) :
    machineAfter i ((n, h) :: cs) busy s = machineAfter i cs busy s := by
  rw [machineAfter, commandsTo_cons_of_target_ne ht, machineAfter]

/-- A command to another machine makes no difference to whether machine `i` is busy. -/
theorem machineAfter_busy_of_target_ne {r : Reply} (ht : h.target ≠ some i) :
    machineAfter i cs (if r = .notReturned then h.target.toList ++ busy else busy) s = machineAfter i cs busy s := by
  have hmem : i ∉ h.target.toList := by simpa using ht
  split
  · simp only [machineAfter, List.mem_append, hmem, false_or]
  · rfl

/-- A command that has not returned ends the session of its machine, which is busy from then on. -/
theorem machineAfter_cons_next {c : Command} {t : State} {r : Reply} (hi : i ∉ busy)
    (hc : perform n c s = .next (t, r)) :
    machineAfter i cs (if r = .notReturned then [i] ++ busy else busy) t =
      machineAfter i ((n, .on i c) :: cs) busy s := by
  rw [machineAfter_of_not_mem hi, commandsTo_cons_on, session_cons_next hc]
  split
  · exact machineAfter_of_mem (by simp)
  · exact machineAfter_of_not_mem hi

end

/-- A session changes machine `i` as the commands given to it do, and in no other way. -/
theorem World.sessionFrom_machine (i : Nat) (cs : List (Nat × HostCommand)) (busy : List Nat) (w : World) (s : State)
    (hs : w.machines[i]? = some s) :
    (World.sessionFrom cs busy w).machines[i]? = some (machineAfter i cs busy s) := by
  induction cs generalizing busy w s with
  | nil =>
    rw [World.sessionFrom, hs, machineAfter, commandsTo, Machine.session, ite_self]
  | cons x cs ih =>
    obtain ⟨n, h⟩ := x
    by_cases ht : h.target = some i
    case neg =>
      rw [machineAfter_cons_of_target_ne ht]
      by_cases hbusy : h.target.any busy.contains = true
      · rw [World.sessionFrom_cons_busy hbusy]
        exact ih busy w s hs
      by_cases hc : ∃ x, World.command n h w = .next x
      · obtain ⟨⟨w', r⟩, hc⟩ := hc
        rw [World.sessionFrom_cons_next hbusy hc, ih _ w' s (World.command_machine_of_target_ne ht hs hc),
          machineAfter_busy_of_target_ne ht]
      · rw [World.sessionFrom_cons_of_not_next (not_exists.1 hc)]
        exact ih busy w s hs
    case pos =>
      obtain ⟨c, rfl⟩ : ∃ c, h = .on i c := by
        cases h with
        | load p latch image => cases ht
        | on j c => cases ht; exact ⟨c, rfl⟩
      by_cases hi : i ∈ busy
      · have hbusy : (HostCommand.on i c).target.any busy.contains = true := by simpa [HostCommand.target] using hi
        rw [World.sessionFrom_cons_busy hbusy, ih busy w s hs, machineAfter_of_mem hi, machineAfter_of_mem hi]
      have hbusy : ¬ (HostCommand.on i c).target.any busy.contains = true := by simpa [HostCommand.target] using hi
      obtain ⟨t, r, hc⟩ | ⟨r, hc⟩ := perform_cases n c s
      · obtain ⟨w', hw', ht⟩ := World.command_on_next hs hc
        rw [World.sessionFrom_cons_next hbusy hw', ih _ w' t ht, ← machineAfter_cons_next hi hc]
        rfl
      · rw [World.sessionFrom_cons_of_not_next (World.command_on_refused hs hc), ih busy w s hs,
          machineAfter_of_not_mem hi, machineAfter_of_not_mem hi, commandsTo_cons_on, session_cons_refused hc]

theorem World.session_machine {i : Nat} {w : World} {s : State} (hs : w.machines[i]? = some s)
    (cs : List (Nat × HostCommand)) : (w.session cs).machines[i]? = some (Machine.session (commandsTo i cs) s) := by
  rw [World.session, World.sessionFrom_machine i cs [] w s hs, machineAfter_of_not_mem List.not_mem_nil]

theorem World.session_machine_of_no_command {i : Nat} {w : World} {s : State} (hs : w.machines[i]? = some s)
    {cs : List (Nat × HostCommand)} (hno : ∀ x ∈ cs, x.2.target ≠ some i) : (w.session cs).machines[i]? = some s := by
  rw [World.session_machine hs, commandsTo_eq_nil hno, Machine.session]

/-- Settles O54: right after DUPLICATE the original and the copy are the copied state, and from there a session gives
each its own commands alone. -/
theorem duplicateIsIndependentCopy : Obligations.DuplicateIsIndependentCopy := by
  intro n i w s hs
  obtain ⟨hi, hget⟩ := List.getElem?_eq_some_iff.1 hs
  have hset : w.machines.set i s = w.machines := hget ▸ List.set_getElem_self hi
  have hduplicate : World.command n (.on i .duplicate) w = .next ({ machines := w.machines ++ [s] }, .machine s) :=
    World.command_on_eq_next.2 ⟨s, s, hs, rfl, by rw [hset]; rfl⟩
  have horiginal : (w.machines ++ [s])[i]? = some s := (List.getElem?_append_left hi).trans hs
  have hcopy : (w.machines ++ [s])[w.machines.length]? = some s := List.getElem?_concat_length
  exact ⟨_, hduplicate, rfl, fun cs => ⟨World.session_machine_of_no_command hcopy,
    World.session_machine_of_no_command horiginal, World.session_machine hcopy cs, World.session_machine horiginal cs⟩⟩

end Sys2Proof.Machine
end
